-- ==== Sys2Proof/Word.lean ====
section
/-! DEFINITION. The one datum of the core: an 8-bit byte. There is no wider datum anywhere (R54) and
nothing is signed (R10). -/

namespace Sys2Proof

/-- A byte: a delivered byte, a value byte, a Frame Buffer cell, a wire byte (R8, R25, R36, R54). Its
bits are numbered 7 (most significant) down to 0 (R10). -/
abbrev Byte := BitVec 8

end Sys2Proof
end

