-- ==== Sys2Proof/Syntax.lean ====
section
/-! DEFINITION. The five decodable units of the host command protocol (R84), one constructor per row of
spec/opcode_table.json. -/

namespace Sys2Proof

/-- A decodable unit of the host stream (R84), written as R87 writes it: `p` is the pixel index field
`P`, `v` the value byte `V`, `b` the whole junk byte. -/
inductive Instr where
  /-- `SETR p, v`: write `v` to the red cell of pixel `p` of strip 0 (R171). -/
  | setr (p : BitVec 5) (v : Byte)
  /-- `SETG p, v`: write `v` to the green cell of pixel `p` of strip 0 (R172). -/
  | setg (p : BitVec 5) (v : Byte)
  /-- `SETB p, v`: write `v` to the blue cell of pixel `p` of strip 0; `p` = 31 sends the frame (R173). -/
  | setb (p : BitVec 5) (v : Byte)
  /-- `SKIP p, v`: reserved selector, both bytes consumed and nothing written (R175). -/
  | skip (p : BitVec 5) (v : Byte)
  /-- `JUNK b`: a byte with bit 7 clear where an index byte is expected, discarded (R176). -/
  | junk (b : Byte)
deriving DecidableEq, Repr

end Sys2Proof
end

