-- ==== Sys2Proof/WellFormed.lean ====
section
/-! DEFINITION. Which terms of `Instr` are units of the stream. The field widths of R81 and R82 are in
the types; the one constraint left is that of `JUNK b` (R87: "b in 0x00 to 0x7F"). -/

namespace Sys2Proof

/-- The unit can stand on the stream: a junk byte has bit 7 clear (R84, R87). -/
def Instr.wf : Instr → Bool
  | .setr _ _ => true
  | .setg _ _ => true
  | .setb _ _ => true
  | .skip _ _ => true
  | .junk b => !b.getLsbD 7

end Sys2Proof
end

