-- ==== Sys2Proof/Decode.lean ====
section
/-! DEFINITION. The encoding of the host command protocol (30_encoding.md part 1): field extraction, the
decoder, the encoder, the opcode table, the pseudo-commands, and the table's numbering of words. -/

namespace Sys2Proof

/-! ### Fields of an index byte (R81, R83) -/

/-- The framing marker `M`: bit 7 is 1 in an index byte (R81). -/
def isIndexByte (b : Byte) : Bool := b.getLsbD 7

/-- The pixel index `P` = b[6:2] (R83). -/
def pixelField (b : Byte) : BitVec 5 := b.extractLsb' 2 5

/-- The channel selector `C` = b[1:0] (R83). -/
def channelField (b : Byte) : BitVec 2 := b.extractLsb' 0 2

/-- The channel selectors (R81): "0 = red, 1 = green, 2 = blue, 3 = unused/reserved". -/
def redSelector : BitVec 2 := 0#2
/-- Selector 1, green (R81). -/
def greenSelector : BitVec 2 := 1#2
/-- Selector 2, blue (R81). -/
def blueSelector : BitVec 2 := 2#2
/-- Selector 3, reserved: it names no cell (R24, R85). -/
def reservedSelector : BitVec 2 := 3#2

/-- The command that the pixel index, the channel selector and the value byte make up (R84). -/
def commandOf (p : BitVec 5) (c : BitVec 2) (v : Byte) : Instr :=
  if c = redSelector then .setr p v
  else if c = greenSelector then .setg p v
  else if c = blueSelector then .setb p v
  else .skip p v

/-! ### The decoder -/

/-- Why no unit can be read yet: the bytes at hand end inside one. Neither is an illegal encoding, for
decoding is total on complete units (R84). -/
inductive Rejection where
  /-- No byte at all (R204: a stall between units). -/
  | noByte
  /-- An index byte whose value byte has not arrived (R204, U17: a stall inside a command). -/
  | noValueByte
deriving DecidableEq, Repr

/-- What the decoder makes of the bytes at a unit boundary. -/
inductive Decoded where
  /-- A complete unit and the bytes after it. -/
  | unit (i : Instr) (rest : List Byte)
  /-- No complete unit. -/
  | rejected (why : Rejection)
deriving DecidableEq, Repr

/-- Decoding at a unit boundary (R80, R84): bit 7 of the first byte alone tells the length of the unit;
1 means a two-byte command, 0 a one-byte junk unit. The value byte is not tested (R82, R180). -/
def decode : List Byte → Decoded
  | [] => .rejected .noByte
  | b :: rest =>
    if isIndexByte b then
      match rest with
      | [] => .rejected .noValueByte
      | v :: rest' => .unit (commandOf (pixelField b) (channelField b) v) rest'
    else .unit (.junk b) rest

/-! ### The encoder -/

/-- The index byte that selects pixel `p` and channel `c`: `0x80 | (p << 2) | c` (R94). -/
def indexByte (p : BitVec 5) (c : BitVec 2) : Byte :=
  0x80#8 ||| (p.setWidth 8 <<< 2) ||| c.setWidth 8

/-- The bytes of a unit in the order they arrive: index byte first, value byte second (R52, R87). -/
def encode : Instr → List Byte
  | .setr p v => [indexByte p redSelector, v]
  | .setg p v => [indexByte p greenSelector, v]
  | .setb p v => [indexByte p blueSelector, v]
  | .skip p v => [indexByte p reservedSelector, v]
  | .junk b => [b]

/-! ### The opcode table (R84, spec/opcode_table.json) -/

/-- One row: a unit of `width` bits is of this kind when the bits under `mask` read `pattern`. -/
structure OpcodeRow where
  mnemonic : String
  width : Nat
  mask : BitVec 16
  pattern : BitVec 16
deriving DecidableEq, Repr

/-- The five rows of R84's table. -/
def opcodeRows : List OpcodeRow :=
  [⟨"SETR", 16, 0x8300, 0x8000⟩,
   ⟨"SETG", 16, 0x8300, 0x8100⟩,
   ⟨"SETB", 16, 0x8300, 0x8200⟩,
   ⟨"SKIP", 16, 0x8300, 0x8300⟩,
   ⟨"JUNK", 8, 0x80, 0x00⟩]

/-- The row's pattern holds of the byte `b` at a unit boundary and the byte `v` after it. A 16-bit word
has the index byte in bits 15:8 and the value byte in bits 7:0 (R11); an 8-bit row looks at `b` alone. -/
def OpcodeRow.covers (r : OpcodeRow) (b v : Byte) : Bool :=
  if r.width = 16 then (b ++ v) &&& r.mask == r.pattern
  else b.setWidth 16 &&& r.mask == r.pattern

/-- The table's name of a unit. -/
def Instr.mnemonic : Instr → String
  | .setr _ _ => "SETR"
  | .setg _ _ => "SETG"
  | .setb _ _ => "SETB"
  | .skip _ _ => "SKIP"
  | .junk _ => "JUNK"

/-! ### Pseudo-commands (R87) -/

/-- The three colours a `SET` names. -/
inductive Channel where
  | red
  | green
  | blue
deriving DecidableEq, Repr

/-- `SET p, c, v` is `SETR`, `SETG` or `SETB p, v` (R87). -/
def asmSet (p : BitVec 5) (c : Channel) (v : Byte) : List Instr :=
  match c with
  | .red => [.setr p v]
  | .green => [.setg p v]
  | .blue => [.setb p v]

/-- `PIXEL p, r, g, b` is `SETR p, r` then `SETG p, g` then `SETB p, b` (R87). -/
def asmPixel (p : BitVec 5) (r g b : Byte) : List Instr :=
  [.setr p r, .setg p g, .setb p b]

/-- `FLUSH v` is `SETB 31, v`, the only way to start a frame send (R87). -/
def asmFlush (v : Byte) : List Instr := [.setb 31#5 v]

/-- The byte stream of a list of units. -/
def assemble (is : List Instr) : List Byte := is.flatMap encode

/-! ### Words as spec/opcode_table.json numbers them -/

/-- The bytes, in arrival order, of a table word. The table's own numbering holds: of a 16-bit word the
byte that arrives first is bits 15:8 and the second is bits 7:0 (R11); an 8-bit word is the first byte,
and the byte after it is zero. -/
def tableBytes (nbits w : Nat) : List Byte :=
  if nbits ≤ 8 then [BitVec.ofNat 8 (w % 2 ^ nbits), 0#8]
  else [BitVec.ofNat 8 (w / 256), BitVec.ofNat 8 w]

/-- The unit the decoder reads from a table word. -/
def decodeTableWord (nbits w : Nat) : Option Instr :=
  match decode (tableBytes nbits w) with
  | .unit i _ => some i
  | .rejected _ => none

end Sys2Proof
end

