-- ==== Sys2Proof/Config.lean ====
section
/-! DEFINITION. What is fixed before reset: the constants of R8 and the open parameters of R9. The open
parameters are opaque constants: a claim that holds of the model holds whatever they are. -/

namespace Sys2Proof.Config

/-- A strip has "exactly 32 Color entries (index 0..31)" (R8, R24). -/
abbrev pixelsPerStrip : Nat := 32

/-- A colour has three channels: 0 red, 1 green, 2 blue (R8, R24). -/
abbrev channelCount : Nat := 3

/-- A transmitted byte is 8 bit-periods (R8). -/
abbrev bitsPerByte : Nat := 8

/-- How many strips `N_STRIPS` exceeds its least value 1 by (R9: "natural number, at least 1", OPEN). -/
opaque extraStrips : Nat

/-- `N_STRIPS` (R9, 92_eei_decisions.md D8): at least 1, no upper bound, otherwise open. -/
def nStrips : Nat := extraStrips + 1

/-- `FB_RESET`, the Frame Buffer contents at reset, by strip, pixel and channel number (R9, R27): an
arbitrary function into the bytes, open. -/
opaque fbReset : Nat → Nat → Nat → Byte

/-- What `IDX` holds at reset: "unspecified (any 5-bit value)" (R43, U5), open. -/
opaque idxReset : BitVec 5

/-- What `CH` holds at reset: "unspecified (any 2-bit value)" (R43, U5), open. -/
opaque chReset : BitVec 2

/-- `DATA_PIN`, an opaque label no rule reads (R9, R115). -/
opaque dataPin : String

/-- `CLOCK_PIN`, an opaque label no rule reads (R9, R115). -/
opaque clockPin : String

/-- `PER_BIT_DELAY`: `none` or a duration (R9). It is timing only and no rule depends on it (R256), so
nothing in the model reads it. -/
opaque perBitDelay : Option Nat

end Sys2Proof.Config
end

