-- ==== Sys2Proof/Machine/State.lean ====
section
/-! DEFINITION. The whole state of the core (10_state.md), the three outcomes' reasons, and reset (R43). -/

namespace Sys2Proof.Machine

/-- The decoder phase `PH` (R21). -/
inductive Phase where
  /-- The next byte read is interpreted as an index byte; "synchronized". -/
  | seekIndex
  /-- The next byte read is interpreted as a value byte. -/
  | seekValue
deriving DecidableEq, Repr

/-- The two output lines (R30). -/
inductive Line where
  | data
  | clock
deriving DecidableEq, Repr

/-- What a level register holds (R30): `unknown` until the line is first driven. -/
inductive Level where
  | low
  | high
  | unknown
deriving DecidableEq, Repr

/-- What a direction latch holds (R31). -/
inductive Direction where
  | unconfigured
  | output
deriving DecidableEq, Repr

/-- The line operations (R13): `CfgOut(line)` and `Set(line, level)`, `true` being level 1. -/
inductive LineOp where
  | cfgOut (line : Line)
  | set (line : Line) (level : Bool)
deriving DecidableEq, Repr

/-- One colour: three 8-bit cells (R24, R25). -/
structure Color where
  red : Byte
  green : Byte
  blue : Byte
deriving DecidableEq, Repr

/-- One strip: a fixed-length array of exactly 32 colours (R24, R26). -/
abbrev Strip := Vector Color Config.pixelsPerStrip

/-- `FB`, the core's only memory: an ordered sequence of strips (R24, R50). Every cell that exists is
held, so equal buffers are equal data. -/
abbrev FrameBuffer := List Strip

/-- The form of the memory that every operation keeps: one or more strips (R24). That a strip has exactly
32 colours of three cells is in the types (R26). -/
def Memory.wf (fb : FrameBuffer) : Bool := decide (0 < fb.length)

/-- Where the core stands in its life: the only sequencing beside `PH` and `PENDING` (R215, R240). The
model's own name for what R240 says in words. -/
inductive Stage where
  /-- After the reset event, before the initialisation sequence has performed an operation (R43). -/
  | resetting
  /-- The initialisation sequence has been started; after it the decoder loop runs for ever (R240). -/
  | running
deriving DecidableEq, Repr

/-- The state of the core (10_state.md), with its input and its observation beside it. -/
structure State where
  /-- `PH` (R21). -/
  phase : Phase
  /-- `IDX`, the latched pixel index (R22). -/
  idx : BitVec 5
  /-- `CH`, the latched channel selector (R23). -/
  ch : BitVec 2
  /-- `FB`, the Pixel Frame Buffer (R24). -/
  fb : FrameBuffer
  /-- The level register of `DATA` (R30). -/
  data : Level
  /-- The level register of `CLOCK` (R30). -/
  clock : Level
  /-- `DIR_DATA` (R31). -/
  dirData : Direction
  /-- `DIR_CLOCK` (R31). -/
  dirClock : Direction
  /-- `PENDING`: line operations committed and not yet performed, the next one first (R39). -/
  pending : List LineOp
  /-- Whether the reset sequence has been started (R240). -/
  stage : Stage
  /-- The bytes of `RX_STREAM` delivered and not yet consumed, the next one first (R36). Input, not state
  of the core. -/
  rx : List Byte
  /-- `LINE_TRACE`: the line operations performed since reset, in order (R13). An observation; no rule
  reads it. -/
  trace : List LineOp
deriving DecidableEq, Repr

/-- There is no fault: "No behaviour of this hardware is treated as `fault`" (93_implementation_defined.md,
R200, R205). No constructor, so no step can end in one. -/
inductive Fault
deriving DecidableEq, Repr

/-- Why the model gives an instruction no meaning. -/
inductive Refusal where
  /-- The instruction's arm of `exec` has no meaning yet. Raised by no arm of this model. Safe. -/
  | notModelled (mnemonic : String)
deriving DecidableEq, Repr

/-- Strip `s` at reset: `FB_RESET(s, p, c)` in every cell (R27, R43). -/
def Strip.reset (s : Nat) : Strip :=
  Vector.ofFn fun p : Fin Config.pixelsPerStrip =>
    ⟨Config.fbReset s p.val 0, Config.fbReset s p.val 1, Config.fbReset s p.val 2⟩

/-- The Frame Buffer at reset: strip 0, then strips 1 to `N_STRIPS` - 1 (R24, R27). -/
def FrameBuffer.reset : FrameBuffer :=
  Strip.reset 0 :: (List.range Config.extraStrips).map fun s => Strip.reset (s + 1)

/-- The machine right after the reset event (R43). -/
def State.reset : State where
  phase := .seekIndex
  idx := Config.idxReset
  ch := Config.chReset
  fb := FrameBuffer.reset
  data := .unknown
  clock := .unknown
  dirData := .unconfigured
  dirClock := .unconfigured
  pending := []
  stage := .resetting
  rx := []
  trace := []

end Sys2Proof.Machine
end

