-- ==== Sys2Proof/Machine/Operands.lean ====
section
/-! DEFINITION. Operands: the address of a Frame Buffer cell and the one addressing mode of the commands
(R24, R178). The fields of a command are immediates taken from its bytes by Sys2Proof/Decode.lean (R83). -/

namespace Sys2Proof.Machine

/-- A Frame Buffer address: the triple (strip, pixel, channel), with channel 0 red, 1 green, 2 blue
(R24, R50). A triple may name no cell. -/
structure CellAddr where
  strip : Nat
  pixel : Nat
  channel : Nat
deriving DecidableEq, Repr

/-- The one addressing mode, direct: (0, `P`, channel); "the strip is always 0, nothing is added, scaled,
pre- or post-modified" (R178). The pixel index is zero-extended (R83). -/
def directCell (p : BitVec 5) (c : BitVec 2) : CellAddr := ⟨0, p.toNat, c.toNat⟩

/-- The cell of a colour that a channel number names; 3 and above name none (R24, R60). -/
def Color.cell? (col : Color) : Nat → Option Byte
  | 0 => some col.red
  | 1 => some col.green
  | 2 => some col.blue
  | _ => none

/-- The colour with the named cell replaced, all 8 bits as they arrived (R25). -/
def Color.put (col : Color) (c : Nat) (v : Byte) : Color :=
  match c with
  | 0 => { col with red := v }
  | 1 => { col with green := v }
  | 2 => { col with blue := v }
  | _ => col

/-- The strip with one cell of one pixel replaced. -/
def Strip.put (st : Strip) (p c : Nat) (v : Byte) : Strip :=
  if h : p < Config.pixelsPerStrip then st.set p (st[p].put c v) else st

end Sys2Proof.Machine
end

