-- ==== Sys2Proof/Machine/Ops.lean ====
section
/-! DEFINITION. The shared operations over the Frame Buffer, the lines, `PENDING`, the decoder registers
and the input. There is no operation that takes an exception and none that returns from one: the core has
no trap mechanism, and a condition saves nothing and changes nothing (R200, R209, R210). -/

namespace Sys2Proof.Machine

/-! ### The Pixel Frame Buffer (42_frame_buffer.md) -/

/-- The triple names a cell: `0 <= s < N_STRIPS and 0 <= p <= 31 and 0 <= c <= 2` (R24, R60, R151).
`N_STRIPS` is the number of strips the buffer has (R133). -/
def namesCell (fb : FrameBuffer) (a : CellAddr) : Bool :=
  decide (a.strip < fb.length) && decide (a.pixel < Config.pixelsPerStrip)
    && decide (a.channel < Config.channelCount)

/-- `FBRead(s, p, c)` (R150). A triple that names no cell has no reading: no rule performs such a read, and
it is given no meaning (93_implementation_defined.md U2). -/
def fbRead (fb : FrameBuffer) (a : CellAddr) : Option Byte :=
  match fb[a.strip]? with
  | none => none
  | some st =>
    match st[a.pixel]? with
    | none => none
    | some col => col.cell? a.channel

/-- `FBWrite(s, p, c, v)` (R151): the buffer after the guarded write, and whether the write happened. A
write whose triple names no cell is dropped. -/
def fbWrite (fb : FrameBuffer) (a : CellAddr) (v : Byte) : FrameBuffer × Bool :=
  if namesCell fb a then (fb.modify a.strip fun st => st.put a.pixel a.channel v, true)
  else (fb, false)

/-- `FBReadStrip(s)`: the 32 colours of strip `s` in pixel order (R152). -/
def fbReadStrip (fb : FrameBuffer) (s : Nat) : Option (List Color) :=
  fb[s]?.map Vector.toList

/-! ### The two lines (10_state.md section 4) -/

/-- The level of a driven line. -/
def Level.ofBit (b : Bool) : Level := if b then .high else .low

/-- `GpioCfgOut(line)` (R33): the latch becomes `output`; the level register does not change. -/
def gpioCfgOut (l : Line) (s : State) : State :=
  match l with
  | .data => { s with dirData := .output, trace := s.trace ++ [.cfgOut .data] }
  | .clock => { s with dirClock := .output, trace := s.trace ++ [.cfgOut .clock] }

/-- `GpioSet(line, level)` (R34): performed and recorded whether or not the line has that level already. -/
def gpioSet (l : Line) (b : Bool) (s : State) : State :=
  match l with
  | .data => { s with data := Level.ofBit b, trace := s.trace ++ [.set .data b] }
  | .clock => { s with clock := Level.ofBit b, trace := s.trace ++ [.set .clock b] }

/-- Performing one line operation (R33, R34). -/
def performOp (op : LineOp) (s : State) : State :=
  match op with
  | .cfgOut l => gpioCfgOut l s
  | .set l b => gpioSet l b s

/-- Performing line operations in order. -/
def performAll (ops : List LineOp) (s : State) : State :=
  ops.foldl (fun t op => performOp op t) s

/-! ### What is sent (40_signal_driver.md, 41_frame_encoder.md) -/

/-- One bit-period: data set, clock high, clock low (R91, R111). -/
def bitPeriodOps (b : Bool) : List LineOp := [.set .data b, .set .clock true, .set .clock false]

/-- `Ops(v)`: the line operations of `emit_byte(v)`, most significant bit first (R51, R110, R112). -/
def emitOps (v : Byte) : List LineOp :=
  [7, 6, 5, 4, 3, 2, 1, 0].flatMap fun i => bitPeriodOps (v.getLsbD i)

/-- The pixel data byte of a cell: `cell | 0x80` (R88, R132). -/
def pixelDataByte (cell : Byte) : Byte := cell ||| 0x80#8

/-- The latch byte (R89). -/
def latchByte : Byte := 0x00#8

/-- The three bytes of a pixel in wire order: green, blue, red (R53, R131). -/
def pixelWireBytes (col : Color) : List Byte :=
  [pixelDataByte col.green, pixelDataByte col.blue, pixelDataByte col.red]

/-- `FrameBytes(FB)`: strips in order, pixels in order, then one latch byte per strip (R90, R130, R133). -/
def frameBytes (fb : FrameBuffer) : List Byte :=
  (fb.flatMap fun st => st.toList.flatMap pixelWireBytes) ++ List.replicate fb.length latchByte

/-- The line operations of `send_frame()` (R130, R137). -/
def frameOps (fb : FrameBuffer) : List LineOp := (frameBytes fb).flatMap emitOps

/-- The line operations of `init_strip()` for `n` strips: `DATA` and `CLOCK` configured, then one latch
byte per strip (R241, R242). -/
def initOps (n : Nat) : List LineOp :=
  [.cfgOut .data, .cfgOut .clock] ++ (List.replicate n latchByte).flatMap emitOps

/-- Committing line operations: they go into `PENDING` behind what is there (R39, micro view). -/
def commit (ops : List LineOp) (s : State) : State := { s with pending := s.pending ++ ops }

/-- Starting a frame send of the buffer as it is now (R39, R64). -/
def startSend (s : State) : State := commit (frameOps s.fb) s

/-- Starting the initialisation sequence (R240, R241). It reads and writes neither `FB` nor the decoder
registers. -/
def beginInit (s : State) : State := { commit (initOps s.fb.length) s with stage := .running }

/-! ### The decoder registers (43_command_decoder.md) -/

/-- Step 1 of a command: `IDX <- p; CH <- c; PH <- SEEK_VALUE` (R170 to R175). -/
def latchIndex (p : BitVec 5) (c : BitVec 2) (s : State) : State :=
  { s with idx := p, ch := c, phase := .seekValue }

/-- The end of a command: `PH <- SEEK_INDEX` (R170). -/
def endUnit (s : State) : State := { s with phase := .seekIndex }

/-- `FBWrite` on the core's buffer (R151). -/
def storeCell (a : CellAddr) (v : Byte) (s : State) : State :=
  { s with fb := (fbWrite s.fb a v).1 }

/-- The pixel whose blue cell ends a pass (R174). -/
def triggerPixel : BitVec 5 := 31#5

/-- The completion trigger after a write to a blue cell of pixel `p`: `if ok and p = 31: send_frame()`
(R173, R174). Nothing but `PENDING` depends on it. -/
def completionTrigger (ok : Bool) (p : BitVec 5) (s : State) : State :=
  { s with pending := if p == triggerPixel && ok then (startSend s).pending else s.pending }

/-! ### The input (10_state.md section 5) -/

/-- The transport delivers one byte: the host's one liberty (R36, R37, R221). No step of the core. -/
def deliver (b : Byte) (s : State) : State := { s with rx := s.rx ++ [b] }

/-- The input left after `RxRead()` has taken a byte (R37). -/
def withRx (rx : List Byte) (s : State) : State := { s with rx := rx }

end Sys2Proof.Machine
end

