-- ==== Sys2Proof/Machine/Commands.lean ====
section
/-! DEFINITION. The meaning of each decodable unit (43_command_decoder.md section 2), whole: what its bytes
together do to the state. Consuming the bytes from the input is the step's (Machine/Sequencer.lean). The
line operations a unit causes go into `PENDING` and are performed by the steps that follow (R39). -/

namespace Sys2Proof.Machine

/-- `SETR p, v` (R171): latch (p, 0), write the red cell, back to `SEEK_INDEX`. -/
def execSetr (p : BitVec 5) (v : Byte) (s : State) : Host.Outcome State Fault Refusal :=
  .next (endUnit (storeCell (directCell p redSelector) v (latchIndex p redSelector s)))

/-- `SETG p, v` (R172): latch (p, 1), write the green cell, back to `SEEK_INDEX`. -/
def execSetg (p : BitVec 5) (v : Byte) (s : State) : Host.Outcome State Fault Refusal :=
  .next (endUnit (storeCell (directCell p greenSelector) v (latchIndex p greenSelector s)))

/-- `SETB p, v` (R173): latch (p, 2), write the blue cell; if the write happened and p = 31, start the frame
send; back to `SEEK_INDEX`. -/
def execSetb (p : BitVec 5) (v : Byte) (s : State) : Host.Outcome State Fault Refusal :=
  .next (endUnit (completionTrigger (fbWrite s.fb (directCell p blueSelector) v).2 p
    (storeCell (directCell p blueSelector) v (latchIndex p blueSelector s))))

/-- `SKIP p, v` (R175): latch (p, 3), note ReservedChannel, back to `SEEK_INDEX`; the value is dropped. -/
def execSkip (p : BitVec 5) (_v : Byte) (s : State) : Host.Outcome State Fault Refusal :=
  .next (endUnit (latchIndex p reservedSelector s))

/-- `JUNK b` (R176): note FramingDesync; nothing is written. -/
def execJunk (_b : Byte) (s : State) : Host.Outcome State Fault Refusal :=
  .next s

end Sys2Proof.Machine
end

