-- ==== Sys2Proof/Machine/Dispatch.lean ====
section
/-! DEFINITION. One arm per constructor of Instr: the instruction's meaning. -/

namespace Sys2Proof.Machine

def exec (i : Instr) (s : State) : Host.Outcome State Fault Refusal :=
  match i with
  | .setr p v => Sys2Proof.Machine.execSetr p v s
  | .setg p v => Sys2Proof.Machine.execSetg p v s
  | .setb p v => Sys2Proof.Machine.execSetb p v s
  | .skip p v => Sys2Proof.Machine.execSkip p v s
  | .junk b => Sys2Proof.Machine.execJunk b s

end Sys2Proof.Machine
end

