-- ==== Sys2Proof/Machine/Sequencer.lean ====
section
/-! DEFINITION. What the core does next (R170, R240; the micro view of R39): start the initialisation
sequence; else perform the first pending line operation; else read one byte, or block. -/

namespace Sys2Proof.Machine

/-- One turn of the core. -/
inductive Turn where
  /-- The core goes to this state without running a unit. -/
  | advance (s : State)
  /-- The byte just read completes the unit `i`; it runs at `s`, whose input has the byte removed. -/
  | run (i : Instr) (s : State)
deriving DecidableEq, Repr

/-- Handling the byte `b`, already taken from the input (R170): in `SEEK_INDEX` an index byte is latched
and any other byte is a junk unit; in `SEEK_VALUE` the byte, whatever it is, completes the latched command
(R180). -/
def handleByte (b : Byte) (s : State) : Turn :=
  match s.phase with
  | .seekIndex =>
    if isIndexByte b then .advance (latchIndex (pixelField b) (channelField b) s)
    else .run (.junk b) s
  | .seekValue => .run (commandOf s.idx s.ch b) s

/-- The next turn. With no byte available the core is blocked: the state does not change (R37, R204). -/
def nextTurn (s : State) : Turn :=
  match s.stage with
  | .resetting => .advance (beginInit s)
  | .running =>
    match s.pending with
    | op :: ops => .advance (performOp op { s with pending := ops })
    | [] =>
      match s.rx with
      | [] => .advance s
      | b :: rest => handleByte b (withRx rest s)

/-- The state `s` with the unit whose bytes these are brought to the point where the very next step runs
it: the reset sequence is over, nothing is pending, and of a two-byte command the index byte has been
consumed, so that it is held in `IDX` and `CH` with `PH` at `SEEK_VALUE` (R62), and the value byte is the
next of the input; a junk byte is itself the next of the input, with `PH` at `SEEK_INDEX`. -/
def placeUnit (bytes : List Byte) (s : State) : State :=
  match bytes with
  | [] => s
  | b :: rest =>
    if isIndexByte b then
      latchIndex (pixelField b) (channelField b)
        { s with stage := .running, pending := [], rx := rest ++ s.rx }
    else
      endUnit { s with stage := .running, pending := [], rx := b :: rest ++ s.rx }

end Sys2Proof.Machine
end

