-- ==== Sys2Proof/Machine/Step.lean ====
section
/-! DEFINITION. One step of the core (R39, micro view): one line operation, or one byte of the input. -/

namespace Sys2Proof.Machine

/-- One step: take the next turn; where it completes a unit, run it. -/
def step (s : State) : Host.Outcome State Fault Refusal :=
  match nextTurn s with
  | .advance s' => .next s'
  | .run i s' => exec i s'

/-- `s` with the table word's unit at the point where the next step runs it. -/
def State.withFetchWord (s : State) (nbits w : Nat) : State := placeUnit (tableBytes nbits w) s

end Sys2Proof.Machine
end

