-- ==== Sys2Proof/Machine/Flags.lean ====
section
/-! DEFINITION. The core has no condition codes and no status flag (R42): no command writes one. What
stands here instead are the four named conditions of 60_exceptions.md (R200 to R205), as a function of the
state that says which one the next step meets. A condition is noted and changes no state (R200), so
nothing in the step reads this. -/

namespace Sys2Proof.Machine

/-- The four conditions (R205). -/
inductive Condition where
  /-- A byte with bit 7 clear read in `SEEK_INDEX` (R201). -/
  | framingDesync
  /-- A value byte read while `CH` = 3 (R202). -/
  | reservedChannel
  /-- `FBWrite` called with a triple that names no cell (R203). -/
  | outOfRangeWrite
  /-- `RxRead()` with no byte available (R204). -/
  | transportStall
deriving DecidableEq, Repr

/-- The condition met on handling the byte `b` (R208: each belongs to a different branch). -/
def byteCondition (s : State) (b : Byte) : Option Condition :=
  match s.phase with
  | .seekIndex => if isIndexByte b then none else some .framingDesync
  | .seekValue =>
    if s.ch = reservedSelector then some .reservedChannel
    else if namesCell s.fb (directCell s.idx s.ch) then none
    else some .outOfRangeWrite

/-- The condition the next step meets, at most one (R208). `TransportStall` is met before a byte is
obtained; none can occur during reset or while line operations are pending (R210). -/
def conditionMet (s : State) : Option Condition :=
  match s.stage, s.pending, s.rx with
  | .running, [], [] => some .transportStall
  | .running, [], b :: _ => byteCondition s b
  | _, _, _ => none

end Sys2Proof.Machine
end

