-- ==== Sys2Proof/Machine/Macro.lean ====
section
/-! DEFINITION. The macro view of R39: each operation of the spec's pseudocode performs all its line
operations at once, and one call of `decodeByte` handles one byte (R170, R182). Written from the
pseudocode of R110, R111, R130, R170 and R241, apart from the micro view that `step` takes; that the two
views agree is a statement. -/

namespace Sys2Proof.Machine

/-- `bit_period(b)` (R111). -/
def bitPeriod (b : Bool) (s : State) : State :=
  gpioSet .clock false (gpioSet .clock true (gpioSet .data b s))

/-- `emit_byte(v)`: `for i = 7 downto 0: bit_period(v[i])` (R110). -/
def emitByte (v : Byte) (s : State) : State :=
  [7, 6, 5, 4, 3, 2, 1, 0].foldl (fun t i => bitPeriod (v.getLsbD i) t) s

/-- The pixel data of one strip (R130; the strip is taken at once, R152). -/
def emitStrip (st : Strip) (s : State) : State :=
  st.toList.foldl (fun t col =>
    emitByte (col.red ||| 0x80#8) (emitByte (col.blue ||| 0x80#8) (emitByte (col.green ||| 0x80#8) t))) s

/-- `send_frame()` (R130). -/
def sendFrame (s : State) : State :=
  s.fb.foldl (fun t _ => emitByte 0x00#8 t) (s.fb.foldl (fun t st => emitStrip st t) s)

/-- `init_strip()` (R241), after which the decoder loop runs (R240). -/
def initStrip (s : State) : State :=
  { s.fb.foldl (fun t _ => emitByte 0x00#8 t) (gpioCfgOut .clock (gpioCfgOut .data s)) with
    stage := .running }

/-- `decode_byte(b)` (R170). -/
def decodeByte (s : State) (b : Byte) : State :=
  match s.phase with
  | .seekIndex =>
    if b.getLsbD 7 = false then s
    else { s with idx := b.extractLsb' 2 5, ch := b.extractLsb' 0 2, phase := .seekValue }
  | .seekValue =>
    if s.ch ≠ 3#2 then
      let w := fbWrite s.fb ⟨0, s.idx.toNat, s.ch.toNat⟩ b
      let t := { s with fb := w.1 }
      let t := if w.2 = true ∧ t.idx = 31#5 ∧ t.ch = 2#2 then sendFrame t else t
      { t with phase := .seekIndex }
    else { s with phase := .seekIndex }

/-- Consuming a finite stretch of the input: the left fold of `decode_byte` (R182). -/
def consume (s : State) (bs : List Byte) : State := bs.foldl decodeByte s

end Sys2Proof.Machine
end

