-- ==== Sys2Proof/Machine/Views.lean ====
section
/-! DEFINITION. Computed views that no step reads: the counters of the sequence in flight, a frame send or
the initialisation (R40), and the bits a strip takes from the lines (R116, informative). -/

namespace Sys2Proof.Machine

/-- Where a sequence stands: the counters of R40. The bit counter runs 7 down to 0 and the bit phase 0 to 2.
A frame send passes through both; of the initialisation there are the latch bytes only. -/
inductive SendPos where
  /-- In the pixel data: strip, pixel, byte in pixel (0 green, 1 blue, 2 red), bit, bit phase. -/
  | pixelData (strip pixel byteInPixel bit bitPhase : Nat)
  /-- In the latch bytes: which one, bit, bit phase. -/
  | latch (latchByteNo bit bitPhase : Nat)
deriving DecidableEq, Repr

/-- The counters of a send over `n` strips of which `k` operations have been performed (R40: "Their values
are determined by how many operations of the current sequence have been performed"). -/
def sendPos (n k : Nat) : SendPos :=
  if k / 24 < 96 * n then
    .pixelData (k / 24 / 96) (k / 24 % 96 / 3) (k / 24 % 3) (7 - k % 24 / 3) (k % 3)
  else .latch (k / 24 - 96 * n) (7 - k % 24 / 3) (k % 3)

/-- The counters of an initialisation of which `k` operations have been performed (R40, R241): `none` before
the two `CfgOut`, which belong to no byte and no bit-period, and then the latch-byte, bit and bit-phase
counters (log entry 13). -/
def initPos (k : Nat) : Option SendPos :=
  if k < 2 then none else some (.latch ((k - 2) / 24) (7 - (k - 2) % 24 / 3) ((k - 2) % 3))

/-- The counters of the sequence in flight, read off `PENDING` (R39, R40): `none` when nothing is pending and
while a `CfgOut` is next. A frame send of `n` strips has 2328 x `n` operations (R136). An initialisation ends
in the same `n` latch bytes as a frame send, so there too what is still pending fixes the counters. -/
def counters (s : State) : Option SendPos :=
  match s.pending with
  | [] => none
  | .cfgOut _ :: _ => none
  | .set _ _ :: _ => some (sendPos s.fb.length (2328 * s.fb.length - s.pending.length))

/-- How many operations of a frame send over `n` strips come before the one the counters point at. -/
def SendPos.performed (n : Nat) : SendPos → Nat
  | .pixelData s p j bit ph => 24 * (3 * (32 * s + p) + j) + 3 * (7 - bit) + ph
  | .latch j bit ph => 24 * (96 * n + j) + 3 * (7 - bit) + ph

/-- The channel number of the byte in a pixel: green, blue, red in that order (R40, R53). -/
def wireChannel : Nat → Nat
  | 0 => 1
  | 1 => 2
  | _ => 0

/-- The operation of a bit-period that sends bit `b` (R111). -/
def bitPhaseOp (b : Bool) : Nat → LineOp
  | 0 => .set .data b
  | 1 => .set .clock true
  | _ => .set .clock false

/-- The line operation the counters select, read from the buffer (R40, R90, R91). -/
def opAtPos (fb : FrameBuffer) : SendPos → Option LineOp
  | .pixelData s p k bit ph =>
    (fbRead fb ⟨s, p, wireChannel k⟩).map fun cell => bitPhaseOp ((cell ||| 0x80#8).getLsbD bit) ph
  | .latch _ bit ph => some (bitPhaseOp ((0x00#8 : Byte).getLsbD bit) ph)

/-- PRESUMED (R116, GK1, notes/assumptions/9.md): the bits a strip that samples `DATA` on the rising edge
of `CLOCK` takes from a trace, given the levels of the two lines before it; each clock pulse that raises
the line gives the level of `DATA`. DESIGN CHOICE (the same entry): R116 leaves open whether a
`Set(CLOCK, 1)` at an `unknown` level is an edge, and here it is none, so it gives no bit. Informative only:
nothing in the model reads it. -/
def sampledBits (data clock : Level) : List LineOp → List Level
  | [] => []
  | .cfgOut _ :: ops => sampledBits data clock ops
  | .set .data b :: ops => sampledBits (Level.ofBit b) clock ops
  | .set .clock b :: ops =>
    if b && clock == .low then data :: sampledBits data (Level.ofBit b) ops
    else sampledBits data (Level.ofBit b) ops

end Sys2Proof.Machine
end

