-- ==== Sys2Proof/Safety.lean ====
section
/-! DEFINITION. The terms the statements use: where the core stands between units, when it is quiescent,
what a store changes, and the invariants every step keeps. -/

namespace Sys2Proof.Machine

/-- The core is about to read a byte: reset is over and nothing is pending (R39). -/
def State.readsNext (s : State) : Prop := s.stage = .running ∧ s.pending = []

/-- The core is at a unit boundary: about to read a byte in `SEEK_INDEX` (R80). -/
def State.atBoundary (s : State) : Prop := s.readsNext ∧ s.phase = .seekIndex

/-- A quiescent state: about to perform `RxRead()` with no byte available (R247). -/
def State.quiescent (s : State) : Prop := s.readsNext ∧ s.rx = []

/-- `fb'` is `fb` with `v` stored in the cell `a`: that cell holds `v`, every other triple reads as before,
and no strip has been added or removed (R151). -/
def StoresCell (fb fb' : FrameBuffer) (a : CellAddr) (v : Byte) : Prop :=
  fbRead fb' a = some v ∧ (∀ a', a' ≠ a → fbRead fb' a' = fbRead fb a') ∧ fb'.length = fb.length

/-- `k` steps of the core. -/
def runSteps (k : Nat) (s : State) : Host.Outcome State Fault Refusal := Host.Core.run core k s

/-- The level of the last `Set` of a line in a trace, `unknown` if there is none (R35). -/
def lastLevel (l : Line) (ops : List LineOp) : Level :=
  ops.foldl (fun acc op =>
    match op with
    | .cfgOut _ => acc
    | .set l' b => if l' = l then Level.ofBit b else acc) .unknown

/-- `output` exactly when a trace contains the `CfgOut` of the line (R35). -/
def configuredIn (l : Line) (ops : List LineOp) : Direction :=
  if LineOp.cfgOut l ∈ ops then .output else .unconfigured

/-- The line registers follow from the trace (R35). -/
def LinesFollowTrace (s : State) : Prop :=
  s.data = lastLevel .data s.trace ∧ s.clock = lastLevel .clock s.trace ∧
  s.dirData = configuredIn .data s.trace ∧ s.dirClock = configuredIn .clock s.trace

/-- The Frame Buffer has its `N_STRIPS` strips, and every cell of strips 1 and up holds `FB_RESET` (R26,
R28). -/
def BufferShape (s : State) : Prop :=
  s.fb.length = Config.nStrips ∧
  ∀ a : CellAddr, 1 ≤ a.strip → namesCell s.fb a = true →
    fbRead s.fb a = some (Config.fbReset a.strip a.pixel a.channel)

/-- What the core has sent and is committed to send is the initialisation sequence followed by whole frames
(R135, R138, R139): before the reset sequence nothing; after it either nothing is pending and the trace is
the initialisation and whole frames, or the rest of the initialisation is pending, or the rest of a frame
of the buffer as it stands is (R64). -/
def TraceIsWholeFrames (s : State) : Prop :=
  match s.stage with
  | .resetting => s.trace = [] ∧ s.pending = []
  | .running =>
    ∃ sent : List FrameBuffer, (∀ f ∈ sent, f.length = Config.nStrips) ∧
      ((s.pending = [] ∧ s.trace = initOps Config.nStrips ++ sent.flatMap frameOps) ∨
       (s.pending ≠ [] ∧ sent = [] ∧ s.trace ++ s.pending = initOps Config.nStrips) ∨
       (s.pending ≠ [] ∧ s.pending <:+ frameOps s.fb ∧
        s.trace ++ s.pending = initOps Config.nStrips ++ sent.flatMap frameOps ++ frameOps s.fb))

/-- A value byte that a conforming stream may carry: bit 7 is 0 (R250). -/
def conformingValue (v : Byte) : Prop := v.getLsbD 7 = false

/-- A conforming stream: commands only, every value byte with bit 7 = 0 (R250). A command is given by its
index byte and its value byte. -/
def conformingBytes (cmds : List (Byte × Byte)) : Prop :=
  ∀ c ∈ cmds, isIndexByte c.1 = true ∧ conformingValue c.2

/-- The bytes of a list of commands, index byte first (R52). -/
def commandBytes (cmds : List (Byte × Byte)) : List Byte := cmds.flatMap fun c => [c.1, c.2]

/-- How many bytes of a stretch of the input are discarded as junk from `s` on: those at which the state
that `decode_byte` has reached meets `FramingDesync` (R176, R201). An account of the input, not state of the
core (R41). -/
def discarded : State → List Byte → Nat
  | _, [] => 0
  | s, b :: bs =>
    (if byteCondition s b = some .framingDesync then 1 else 0) + discarded (decodeByte s b) bs

end Sys2Proof.Machine
end

