-- ==== Sys2Proof/Certificates/Slice0/Obligations.lean ====
section
/-! DEFINITION. The statements for the provers. Each formalises what its docstring names; `runSteps k` is
`k` steps of the core. -/

open Sys2Proof Sys2Proof.Machine

/-! ### Reset and initialisation -/

/-- R27 and the table of R43: what the reset event leaves. `IDX` and `CH` are unspecified there, so nothing
is said of them. The spec marks `FB_RESET` (D3) and the `unknown` levels (D5) as its own decisions. -/
def Obligations.ResetLeavesSpecifiedValues : Prop :=
  State.reset.phase = .seekIndex ∧
  State.reset.fb.length = Config.nStrips ∧ 1 ≤ Config.nStrips ∧
  (∀ a : CellAddr, a.strip < Config.nStrips → a.pixel < 32 → a.channel < 3 →
    fbRead State.reset.fb a = some (Config.fbReset a.strip a.pixel a.channel)) ∧
  State.reset.dirData = .unconfigured ∧ State.reset.dirClock = .unconfigured ∧
  State.reset.data = .unknown ∧ State.reset.clock = .unknown ∧
  State.reset.pending = [] ∧ State.reset.trace = []

/-- R241, R242: from any state in which the reset sequence has not begun, one step starts it and
2 + 24 x `N_STRIPS` steps perform it; it ends with the trace and the line registers R242 gives, and
nothing else has changed: no byte is consumed and the buffer and the decoder registers are as they were.
The reset state is such a state. The spec marks R242 as derived, and the order of the two `CfgOut` as its
own decision (D6); the extra first step is the model's (log entry 7). -/
def Obligations.InitialisationTraceAndEndState : Prop :=
  (∀ s : State, s.stage = .resetting → s.pending = [] → 0 < s.fb.length →
    runSteps (1 + (2 + 24 * s.fb.length)) s = .next { s with
      stage := .running
      trace := s.trace ++ ([.cfgOut .data, .cfgOut .clock] ++
        (List.replicate s.fb.length (List.replicate 8
          [LineOp.set .data false, LineOp.set .clock true, LineOp.set .clock false]).flatten).flatten)
      dirData := .output
      dirClock := .output
      data := .low
      clock := .low }) ∧
  State.reset.stage = .resetting ∧ State.reset.pending = [] ∧ 0 < State.reset.fb.length ∧
  State.reset.trace = [] ∧ State.reset.phase = .seekIndex ∧ State.reset.fb = FrameBuffer.reset

/-! ### Encodings of the host command protocol -/

/-- R84: at a unit boundary every byte (with any byte after it) matches the pattern of exactly one row of
the table, and that row is the one whose unit the decoder reads. -/
def Obligations.ExactlyOneRowCoversEveryByte : Prop :=
  ∀ (b v : Byte) (rest : List Byte), ∃ i rest',
    decode (b :: v :: rest) = .unit i rest' ∧
    (opcodeRows.filter fun r => r.covers b v).map OpcodeRow.mnemonic = [i.mnemonic]

/-- R83: the decoder's field extraction is `(b >> 2) & 0x1F` and `b & 0x03`. -/
def Obligations.IndexByteFieldExtraction : Prop :=
  ∀ b : Byte, isIndexByte b = true →
    (pixelField b).toNat = ((b >>> 2) &&& 0x1F#8).toNat ∧
    (channelField b).toNat = (b &&& 0x03#8).toNat

/-- R94 (which the spec marks as derived): the index byte that selects pixel p and channel c is `0x80 | (p
<< 2) | c`, and no other byte is; with the rule's four examples. -/
def Obligations.IndexByteOfPixelAndChannel : Prop :=
  (∀ (b : Byte) (p : BitVec 5) (c : BitVec 2),
    (isIndexByte b = true ∧ pixelField b = p ∧ channelField b = c) ↔
      b = 0x80#8 ||| (p.setWidth 8 <<< 2) ||| c.setWidth 8) ∧
  indexByte 0#5 redSelector = 0x80#8 ∧ indexByte 0#5 greenSelector = 0x81#8 ∧
  indexByte 0#5 blueSelector = 0x82#8 ∧ indexByte 31#5 blueSelector = 0xFE#8

/-- Decode and encode agree on every well-formed unit, whatever bytes follow it. -/
def Obligations.DecodeOfEncode : Prop :=
  ∀ (i : Instr) (rest : List Byte), i.wf = true → decode (encode i ++ rest) = .unit i rest

/-- Each unit has one encoding: what the decoder reads is well formed, and its encoding is the bytes
read. -/
def Obligations.EncodeOfDecode : Prop :=
  ∀ (bs : List Byte) (i : Instr) (rest : List Byte), decode bs = .unit i rest →
    i.wf = true ∧ encode i ++ rest = bs

/-- R80: bit 7 of the first byte alone tells the length of the unit, and the decoder turns away only a
stream that has ended inside a unit. -/
def Obligations.MarkerBitTellsUnitLength : Prop :=
  decode [] = .rejected .noByte ∧
  (∀ b : Byte, b.getLsbD 7 = true → decode [b] = .rejected .noValueByte) ∧
  (∀ (b v : Byte) (rest : List Byte), b.getLsbD 7 = true → ∃ i, decode (b :: v :: rest) = .unit i rest) ∧
  (∀ (b : Byte) (rest : List Byte), b.getLsbD 7 = false → decode (b :: rest) = .unit (.junk b) rest)

/-- Bytes written out from the encodings of R84 and the examples of 95_test_vectors.md parts A and B.4
decode to the units they stand for. -/
def Obligations.WrittenOutBytesDecode : Prop :=
  decode [0b10000000#8, 0x7F#8] = .unit (.setr 0#5 0x7F#8) [] ∧
  decode [0b10000001#8, 0x30#8] = .unit (.setg 0#5 0x30#8) [] ∧
  decode [0b10000010#8, 0x10#8] = .unit (.setb 0#5 0x10#8) [] ∧
  decode [0b11111110#8, 0x55#8] = .unit (.setb 31#5 0x55#8) [] ∧
  decode [0b11001000#8, 0x82#8] = .unit (.setr 18#5 0x82#8) [] ∧
  decode [0b11111111#8, 0x55#8] = .unit (.skip 31#5 0x55#8) [] ∧
  decode [0b00000101#8, 0x80#8] = .unit (.junk 0x05#8) [0x80#8]

/-- R87: the pseudo-commands stand for the bytes their expansions give. -/
def Obligations.PseudoCommandBytes : Prop :=
  (∀ (p : BitVec 5) (r g b : Byte), assemble (asmPixel p r g b) =
    [0x80#8 ||| (p.setWidth 8 <<< 2), r, 0x80#8 ||| (p.setWidth 8 <<< 2) ||| 1#8, g,
      0x80#8 ||| (p.setWidth 8 <<< 2) ||| 2#8, b]) ∧
  (∀ (p : BitVec 5) (v : Byte),
    asmSet p .red v = [.setr p v] ∧ asmSet p .green v = [.setg p v] ∧ asmSet p .blue v = [.setb p v]) ∧
  (∀ v : Byte, assemble (asmFlush v) = [0xFE#8, v])

/-! ### A step runs the decoded unit -/

/-- At a unit boundary whose input begins with the bytes of a well-formed unit, the steps that consume
those bytes, one byte a step (log entry 4), are the unit's meaning at the state with the bytes removed. -/
def Obligations.StepsRunDecodedUnit : Prop :=
  ∀ (s : State) (bs rest : List Byte) (i : Instr), s.atBoundary → s.rx = bs →
    decode bs = .unit i rest → i.wf = true →
    runSteps (encode i).length s = exec i { s with rx := rest }

/-- One step handles one byte (R170, R180): an index byte read in `SEEK_INDEX` is latched, any other byte
there runs as a junk unit, and a byte read in `SEEK_VALUE`, whatever it is, runs the command that `IDX`,
`CH` and the byte make up. -/
def Obligations.OneStepHandlesOneByte : Prop :=
  ∀ (s : State) (b : Byte) (rest : List Byte), s.readsNext → s.rx = b :: rest →
    (s.phase = .seekIndex → b.getLsbD 7 = true →
      step s = .next { s with
        idx := b.extractLsb' 2 5, ch := b.extractLsb' 0 2, phase := .seekValue, rx := rest }) ∧
    (s.phase = .seekIndex → b.getLsbD 7 = false → step s = exec (.junk b) { s with rx := rest }) ∧
    (s.phase = .seekValue → step s = exec (commandOf s.idx s.ch b) { s with rx := rest })

/-- A table word placed with `withFetchWord` is run by the very next step, as the unit the decoder reads
from it. The placing is the model's own (log entries 7 and 8). -/
def Obligations.PlacedTableWordRuns : Prop :=
  ∀ (s : State) (nbits w : Nat) (i : Instr), decodeTableWord nbits w = some i →
    ∃ s', step (s.withFetchWord nbits w) = exec i s' ∧ s'.stage = .running ∧ s'.pending = [] ∧
      s'.fb = s.fb ∧ s'.trace = s.trace ∧ s'.data = s.data ∧ s'.clock = s.clock ∧
      s'.dirData = s.dirData ∧ s'.dirClock = s.dirClock

/-! ### The five units -/

/-- R171, whole: the encoding of `SETR p, v`; its two steps; and its effect, which is complete: the cell
(0, p, red) holds v with all 8 bits, every other cell reads as before, `IDX`, `CH` and `PH` are as the
pseudocode leaves them, and nothing else changes, for p = 31 too (no send). A frame of the buffer after
the write carries `v | 0x80` in the cell's place. -/
def Obligations.SetrStoresRedCell : Prop :=
  ∀ (p : BitVec 5) (v : Byte),
    encode (.setr p v) = [0x80#8 ||| (p.setWidth 8 <<< 2), v] ∧
    (∀ s : State, 0 < s.fb.length → ∃ fb',
      exec (.setr p v) s = .next { s with idx := p, ch := 0#2, fb := fb', phase := .seekIndex } ∧
      StoresCell s.fb fb' ⟨0, p.toNat, 0⟩ v ∧
      (frameBytes fb')[3 * p.toNat + 2]? = some (v ||| 0x80#8)) ∧
    (∀ (s : State) (rest : List Byte), s.atBoundary → s.rx = encode (.setr p v) ++ rest →
      ∃ s1, step s = .next s1 ∧
        s1 = { s with idx := p, ch := 0#2, phase := .seekValue, rx := v :: rest } ∧
        step s1 = exec (.setr p v) { s with rx := rest })

/-- R172, whole: `SETG p, v`, as `SETR` with the green cell and selector 1. -/
def Obligations.SetgStoresGreenCell : Prop :=
  ∀ (p : BitVec 5) (v : Byte),
    encode (.setg p v) = [0x80#8 ||| (p.setWidth 8 <<< 2) ||| 1#8, v] ∧
    (∀ s : State, 0 < s.fb.length → ∃ fb',
      exec (.setg p v) s = .next { s with idx := p, ch := 1#2, fb := fb', phase := .seekIndex } ∧
      StoresCell s.fb fb' ⟨0, p.toNat, 1⟩ v ∧
      (frameBytes fb')[3 * p.toNat]? = some (v ||| 0x80#8)) ∧
    (∀ (s : State) (rest : List Byte), s.atBoundary → s.rx = encode (.setg p v) ++ rest →
      ∃ s1, step s = .next s1 ∧
        s1 = { s with idx := p, ch := 1#2, phase := .seekValue, rx := v :: rest } ∧
        step s1 = exec (.setg p v) { s with rx := rest })

/-- R173, whole: `SETB p, v` stores the blue cell; for p from 0 to 30 no line operation; for p = 31 the
2328 x `N_STRIPS` operations of a frame of the buffer after the write are committed to `PENDING`, and that
many steps perform them. Committing to `PENDING` is view (b) of R39, a decision the spec marks as its own
(D15), and that `PH` is written by the step that commits them is the model's choice (log entry 4). -/
def Obligations.SetbStoresBlueCellAndSends : Prop :=
  ∀ (p : BitVec 5) (v : Byte),
    encode (.setb p v) = [0x80#8 ||| (p.setWidth 8 <<< 2) ||| 2#8, v] ∧
    (∀ s : State, 0 < s.fb.length → ∃ fb',
      exec (.setb p v) s = .next { s with
        idx := p, ch := 2#2, fb := fb', phase := .seekIndex
        pending := s.pending ++ (if p = 31#5 then frameOps fb' else []) } ∧
      StoresCell s.fb fb' ⟨0, p.toNat, 2⟩ v ∧
      (frameBytes fb')[3 * p.toNat + 1]? = some (v ||| 0x80#8) ∧
      (frameOps fb').length = 2328 * s.fb.length) ∧
    (∀ s t : State, s.readsNext → 0 < s.fb.length → exec (.setb p v) s = .next t →
      (p ≠ 31#5 → t.readsNext ∧ t.trace = s.trace) ∧
      (p = 31#5 → runSteps (2328 * s.fb.length) t = .next { t with
        pending := [], data := .low, clock := .low, trace := s.trace ++ frameOps t.fb })) ∧
    (∀ (s : State) (rest : List Byte), s.atBoundary → s.rx = encode (.setb p v) ++ rest →
      ∃ s1, step s = .next s1 ∧
        s1 = { s with idx := p, ch := 2#2, phase := .seekValue, rx := v :: rest } ∧
        step s1 = exec (.setb p v) { s with rx := rest })

/-- R175, whole: `SKIP p, v` consumes both bytes and changes nothing but the decoder registers, whatever p
and v are: no cell, no line operation, no send. -/
def Obligations.SkipConsumesBothBytesOnly : Prop :=
  ∀ (p : BitVec 5) (v : Byte),
    encode (.skip p v) = [0x80#8 ||| (p.setWidth 8 <<< 2) ||| 3#8, v] ∧
    (∀ s : State,
      exec (.skip p v) s = .next { s with idx := p, ch := 3#2, phase := .seekIndex }) ∧
    (∀ (s : State) (rest : List Byte), s.atBoundary → s.rx = encode (.skip p v) ++ rest →
      ∃ s1, step s = .next s1 ∧
        s1 = { s with idx := p, ch := 3#2, phase := .seekValue, rx := v :: rest } ∧
        step s1 = .next { s with idx := p, ch := 3#2, phase := .seekIndex, rx := rest } ∧
        conditionMet s1 = some .reservedChannel)

/-- R176, whole: a byte with bit 7 clear read in `SEEK_INDEX` is consumed and nothing else changes; any
number of them is discarded, one a step. The same byte read in `SEEK_VALUE` is not junk: it is the value of
the command latched. The first clause, that the unit's meaning changes nothing, speaks of every byte and
every state, also of those in which no step runs the unit: there it is the model's choice (log entry
12). -/
def Obligations.JunkChangesNothing : Prop :=
  (∀ (b : Byte) (s : State), exec (.junk b) s = .next s) ∧
  (∀ (s : State) (b : Byte) (rest : List Byte), s.atBoundary → s.rx = b :: rest →
    b.getLsbD 7 = false →
    step s = .next { s with rx := rest } ∧ conditionMet s = some .framingDesync) ∧
  (∀ (s : State) (junk rest : List Byte), s.atBoundary → s.rx = junk ++ rest →
    (∀ b ∈ junk, b.getLsbD 7 = false) → runSteps junk.length s = .next { s with rx := rest }) ∧
  (∀ (s : State) (b : Byte) (rest : List Byte), s.readsNext → s.phase = .seekValue → s.rx = b :: rest →
    b.getLsbD 7 = false → step s = exec (commandOf s.idx s.ch b) { s with rx := rest })

/-- R174: a unit commits line operations if and only if it is a `SETB` of pixel 31 whose write happened,
and then exactly one frame, of the buffer after the write; no other state is looked at. The send is
synchronous: while operations are pending no step reads a byte. The clauses on `PENDING` are view (b) of
R39, a decision the spec marks as its own (D15), taken in log entry 4. -/
def Obligations.SendStartsOnlyOnPixel31Blue : Prop :=
  (∀ (i : Instr) (s : State), ∃ t, exec i s = .next t ∧
    ((∃ v, i = .setb 31#5 v) ∧ 0 < s.fb.length → t.pending = s.pending ++ frameOps t.fb) ∧
    (¬ ((∃ v, i = .setb 31#5 v) ∧ 0 < s.fb.length) → t.pending = s.pending)) ∧
  (∀ s : State, s.stage = .running → s.pending ≠ [] → ∃ t, step s = .next t ∧ t.rx = s.rx ∧
    t.pending = s.pending.tail ∧ t.fb = s.fb)

/-- R203: with at least one strip no next step meets `OutOfRangeWrite`. Where it would be met (a buffer with
no strip, in states no run reaches), the write is dropped, and if it was aimed at pixel 31 blue no frame
is sent. That the guard looks at the strip is the spec's own extension (D17), and what the units do in such
a state is log entry 12. When the condition is met is `OutOfRangeWriteCauseAndDrop`. -/
def Obligations.OutOfRangeWriteUnreachableAndDropped : Prop :=
  (∀ s : State, 0 < s.fb.length → conditionMet s ≠ some .outOfRangeWrite) ∧
  (∀ (p : BitVec 5) (v : Byte) (s : State), s.fb = [] →
    exec (.setr p v) s = .next { s with idx := p, ch := 0#2, phase := .seekIndex } ∧
    exec (.setg p v) s = .next { s with idx := p, ch := 1#2, phase := .seekIndex } ∧
    exec (.setb p v) s = .next { s with idx := p, ch := 2#2, phase := .seekIndex })

/-- R201: `FramingDesync` is met exactly on a byte with bit 7 clear read in `SEEK_INDEX`, and then the
state is unchanged except that the byte has been consumed. -/
def Obligations.FramingDesyncDiscardsOneByte : Prop :=
  ∀ s : State,
    (conditionMet s = some .framingDesync ↔
      s.atBoundary ∧ ∃ b rest, s.rx = b :: rest ∧ b.getLsbD 7 = false) ∧
    (conditionMet s = some .framingDesync → step s = .next { s with rx := s.rx.tail })

/-- R202: `ReservedChannel` is met exactly on a value byte read while `CH` = 3; afterwards
`PH = SEEK_INDEX`, the byte is consumed, and nothing else has changed. -/
def Obligations.ReservedChannelDropsValueByte : Prop :=
  ∀ s : State,
    (conditionMet s = some .reservedChannel ↔
      s.readsNext ∧ s.phase = .seekValue ∧ s.ch = 3#2 ∧ s.rx ≠ []) ∧
    (conditionMet s = some .reservedChannel →
      step s = .next { s with phase := .seekIndex, rx := s.rx.tail })

/-! ### Stalls, input and the end of a run -/

/-- R204, R37: with no byte available the core is blocked: no number of steps changes the state (in either
phase, `IDX` and `CH` included), and a delivered byte, and only that, ends the stall. That a blocked core
takes steps that change nothing, where the spec says it has no step, is the model's choice (log entry
5). -/
def Obligations.StallLeavesStateUnchanged : Prop :=
  ∀ s : State, s.quiescent →
    conditionMet s = some .transportStall ∧ (∀ k, runSteps k s = .next s) ∧
    (∀ b, (deliver b s).readsNext ∧ (deliver b s).rx = [b] ∧ step (deliver b s) ≠ .next (deliver b s))

/-- R247: the quiescent states are exactly those a step leaves as they are (log entry 5): from every other
state the core has something to do. -/
def Obligations.QuiescentIffStepChangesNothing : Prop :=
  ∀ s : State, s.quiescent ↔ step s = .next s

/-- R36, R221, R255: a byte may be delivered at any time, and unless the core is blocked it makes no
difference to the step in progress; it waits behind the bytes delivered before it. Holding delivered bytes
in the state is the model's choice (log entry 6). -/
def Obligations.DeliveryCommutesWithStep : Prop :=
  ∀ (s t : State) (b : Byte), ¬ s.quiescent → step s = .next t → step (deliver b s) = .next (deliver b t)

/-- R200, R205: no step of the core ends in a fault or a refusal (a blocked core's step: log entry 5). -/
def Obligations.EveryStepAnswersNextState : Prop :=
  ∀ s : State, ∃ t, step s = .next t

/-! ### The Pixel Frame Buffer -/

/-- R151: a write whose triple names a cell stores all 8 bits of the value in that cell, changes no other,
and returns true; any other write returns false and changes nothing at all. The guard on the strip is the
spec's own extension (D17). -/
def Obligations.GuardedWriteStoresOneCell : Prop :=
  ∀ (fb : FrameBuffer) (a : CellAddr) (v : Byte),
    (a.strip < fb.length ∧ a.pixel ≤ 31 ∧ a.channel ≤ 2 →
      (fbWrite fb a v).2 = true ∧ StoresCell fb (fbWrite fb a v).1 a v) ∧
    (¬ (a.strip < fb.length ∧ a.pixel ≤ 31 ∧ a.channel ≤ 2) → fbWrite fb a v = (fb, false))

/-- R60: the cells that exist are the triples with strip below `N_STRIPS`, pixel 0 to 31 and channel 0 to
2; no other triple has a reading. -/
def Obligations.ExactlyTheMappedCellsExist : Prop :=
  ∀ (fb : FrameBuffer) (a : CellAddr),
    (∃ v, fbRead fb a = some v) ↔ a.strip < fb.length ∧ a.pixel ≤ 31 ∧ a.channel ≤ 2

/-- R152: the bulk read of a strip gives 32 colours in pixel order, each being the three single-cell
reads. -/
def Obligations.BulkReadIsNinetySixReads : Prop :=
  ∀ (fb : FrameBuffer) (s : Nat), s < fb.length → ∃ cols, fbReadStrip fb s = some cols ∧
    cols.length = 32 ∧ ∀ p < 32, ∃ col, cols[p]? = some col ∧
      fbRead fb ⟨s, p, 0⟩ = some col.red ∧ fbRead fb ⟨s, p, 1⟩ = some col.green ∧
      fbRead fb ⟨s, p, 2⟩ = some col.blue

/-- R28: no step of the core changes a strip other than strip 0. -/
def Obligations.OnlyStripZeroIsWritten : Prop :=
  ∀ s t : State, step s = .next t →
    t.fb.length = s.fb.length ∧ ∀ a : CellAddr, 1 ≤ a.strip → fbRead t.fb a = fbRead s.fb a

/-! ### The wire: Signal Driver and Frame Encoder -/

/-- R112 (which the spec marks as derived): the closed form of `Ops(v)`: its 24 operations, that it tells
v apart from every other byte, and that v is read back from its `Set(DATA, _)` levels, first one bit 7. -/
def Obligations.EmittedByteClosedForm : Prop :=
  (∀ v : Byte, (emitOps v).length = 24 ∧ ∀ j ≤ 7,
    (emitOps v)[3 * j]? = some (.set .data (v.getLsbD (7 - j))) ∧
    (emitOps v)[3 * j + 1]? = some (.set .clock true) ∧
    (emitOps v)[3 * j + 2]? = some (.set .clock false)) ∧
  (∀ v w : Byte, emitOps v = emitOps w → v = w)

/-- R110, R113: `emit_byte(v)` appends `Ops(v)` to the trace and ends with `CLOCK` = 0 and `DATA` = v[0]; it
writes nothing else. -/
def Obligations.EmitByteEffect : Prop :=
  ∀ (v : Byte) (s : State), emitByte v s = { s with
    trace := s.trace ++ emitOps v, data := Level.ofBit (v.getLsbD 0), clock := .low }

/-- R90: a frame is 96 x `N_STRIPS` pixel data bytes and `N_STRIPS` latch bytes; byte number
3 x (32 x s + p) + k is the green, blue, red byte of pixel p of strip s. -/
def Obligations.FrameLayout : Prop :=
  ∀ fb : FrameBuffer,
    (frameBytes fb).length = 97 * fb.length ∧
    (∀ s < fb.length, ∀ p < 32,
      (frameBytes fb)[3 * (32 * s + p)]? = (fbRead fb ⟨s, p, 1⟩).map (· ||| 0x80#8) ∧
      (frameBytes fb)[3 * (32 * s + p) + 1]? = (fbRead fb ⟨s, p, 2⟩).map (· ||| 0x80#8) ∧
      (frameBytes fb)[3 * (32 * s + p) + 2]? = (fbRead fb ⟨s, p, 0⟩).map (· ||| 0x80#8)) ∧
    (∀ j < fb.length, (frameBytes fb)[96 * fb.length + j]? = some 0x00#8)

/-- R88, R89: the first 96 x `N_STRIPS` bytes of a frame have bit 7 = 1 and the others are 0x00, so that a
latch byte is never confused with a pixel data byte. -/
def Obligations.OnlyLatchBytesAreUnmarked : Prop :=
  ∀ fb : FrameBuffer,
    (∀ w ∈ (frameBytes fb).take (96 * fb.length), w.getLsbD 7 = true) ∧
    (∀ w ∈ (frameBytes fb).drop (96 * fb.length), w = 0x00#8)

/-- R132, R137: what a frame carries is a function of bits 6 to 0 of the cells alone: two buffers of one
size whose cells agree there give the same frame. -/
def Obligations.FrameIgnoresCellBitSeven : Prop :=
  ∀ fb fb' : FrameBuffer, fb.length = fb'.length →
    (∀ a : CellAddr, (fbRead fb a).map (· &&& 0x7F#8) = (fbRead fb' a).map (· &&& 0x7F#8)) →
    frameOps fb = frameOps fb'

/-- R136 (which the spec marks as derived): a send is 2328 x `N_STRIPS` line operations, 776 x `N_STRIPS`
of each of the three kinds of a bit-period. -/
def Obligations.SizeOfASend : Prop :=
  ∀ fb : FrameBuffer,
    (frameBytes fb).length = 97 * fb.length ∧
    (frameOps fb).length = 2328 * fb.length ∧
    (frameOps fb).countP (fun op => op = .set .data true ∨ op = .set .data false) = 776 * fb.length ∧
    (frameOps fb).countP (fun op => op = .set .clock true) = 776 * fb.length ∧
    (frameOps fb).countP (fun op => op = .set .clock false) = 776 * fb.length

/-- R40: after k operations of a send the next one is the one the counters select, and the counters are in
their ranges. -/
def Obligations.CountersSelectTheNextOperation : Prop :=
  ∀ (fb : FrameBuffer) (k : Nat), k < 2328 * fb.length →
    (frameOps fb)[k]? = opAtPos fb (sendPos fb.length k) ∧
    match sendPos fb.length k with
    | .pixelData s p j bit ph => s < fb.length ∧ p ≤ 31 ∧ j ≤ 2 ∧ bit ≤ 7 ∧ ph ≤ 2
    | .latch j bit ph => j < fb.length ∧ bit ≤ 7 ∧ ph ≤ 2

/-- R39: while an operation is pending, a step performs the first one and does nothing else: no byte is
read, no cell and no decoder register is written. -/
def Obligations.PendingOperationGoesFirst : Prop :=
  ∀ (s : State) (op : LineOp) (ops : List LineOp), s.stage = .running → s.pending = op :: ops →
    step s = .next (performOp op { s with pending := ops }) ∧
    ∃ d c dd dc, performOp op { s with pending := ops } = { s with
      pending := ops, trace := s.trace ++ [op], data := d, clock := c, dirData := dd, dirClock := dc }

/-- R137, R114: from the step that consumes the value byte of `SETB 31, v`, the core sends one whole frame
of the buffer with v in it, and reads nothing until the last latch byte is out. -/
def Obligations.SendRunsToItsLastLatchByte : Prop :=
  ∀ (s : State) (v : Byte) (rest : List Byte), s.readsNext → s.phase = .seekValue → s.idx = 31#5 →
    s.ch = 2#2 → s.rx = v :: rest → 0 < s.fb.length →
    ∃ fb', StoresCell s.fb fb' ⟨0, 31, 2⟩ v ∧
      (∀ k ≤ 2328 * s.fb.length, ∃ t, runSteps (1 + k) s = .next t ∧ t.rx = rest ∧ t.fb = fb' ∧
        t.phase = .seekIndex ∧ t.trace = s.trace ++ (frameOps fb').take k ∧
        t.pending = (frameOps fb').drop k) ∧
      runSteps (1 + 2328 * s.fb.length) s = .next { s with
        phase := .seekIndex, fb := fb', rx := rest, data := .low, clock := .low
        trace := s.trace ++ frameOps fb' }

/-- R59, R137: re-sending a frame without intervening writes reproduces the same bit sequence: `SETB 31, v`
twice appends one frame's operations twice. -/
def Obligations.ResendingReproducesTheFrame : Prop :=
  ∀ (s : State) (v : Byte), s.phase = .seekIndex → 0 < s.fb.length → ∃ frame : List LineOp,
    (consume s [0xFE#8, v]).trace = s.trace ++ frame ∧
    (consume s [0xFE#8, v, 0xFE#8, v]).trace = s.trace ++ frame ++ frame ∧
    frame = frameOps (consume s [0xFE#8, v]).fb

/-! ### The two views, and runs -/

/-- R39, R182: the step of the model (the micro view) and the pseudocode of `decode_byte` (the macro view)
are the same machine: from any state about to read, the steps that consume the input reach exactly the
fold of `decode_byte` over it, and stay there. That a blocked core keeps stepping in place is the model's
choice (log entry 5). -/
def Obligations.StepsRefineDecodeByteFold : Prop :=
  ∀ s : State, s.readsNext →
    ∃ k, ∀ m, runSteps (k + m) s = .next { consume s s.rx with rx := [] }

/-- R240, R247: from reset, over any finite input, the run reaches exactly one quiescent state, with the
whole input consumed: that of `init_strip()` followed by the fold of `decode_byte`. The quiescent state as
the end of a run is the spec's own decision (D14). The model's choices are that a blocked core keeps stepping
in place (log entry 5), that the input stands in the state (log entry 6), and the stage from which the reset
sequence starts (log entry 7). -/
def Obligations.RunFromResetReachesItsResult : Prop :=
  ∀ bs : List Byte,
    (∃ k, ∀ m,
      runSteps (k + m) { State.reset with rx := bs } = .next (consume (initStrip State.reset) bs)) ∧
    (consume (initStrip State.reset) bs).quiescent ∧
    ∀ j t, runSteps j { State.reset with rx := bs } = .next t → t.quiescent →
      t = consume (initStrip State.reset) bs

/-- R13, R68: line operations are only ever added to the trace, at its end. That a step adds at most one is
view (b) of R39, a decision the spec marks as its own (D15), taken in log entry 4. -/
def Obligations.TraceOnlyGrows : Prop :=
  ∀ s t : State, step s = .next t → t.trace = s.trace ∨ ∃ op, t.trace = s.trace ++ [op]

/-- R68: the line operations caused by a stretch of the input all come after those caused by the bytes
before it. -/
def Obligations.OutputFollowsInputOrder : Prop :=
  ∀ (s : State) (bs cs : List Byte), ∃ ops₁ ops₂,
    (consume s bs).trace = s.trace ++ ops₁ ∧ (consume s (bs ++ cs)).trace = s.trace ++ ops₁ ++ ops₂

/-! ### Disturbed streams -/

/-- R251 (which the spec marks as derived): an index byte dropped from a conforming stream: its value byte
is discarded, the update is lost, and every other update is applied as sent. -/
def Obligations.DroppedIndexByteLosesOneUpdate : Prop :=
  ∀ (s : State) (before after : List (Byte × Byte)) (i v : Byte), s.phase = .seekIndex →
    conformingBytes (before ++ (i, v) :: after) →
    consume s (commandBytes before ++ v :: commandBytes after) =
      consume s (commandBytes before ++ commandBytes after) ∧
    discarded s (commandBytes before ++ v :: commandBytes after) = 1

/-- R252 (which the spec marks as derived): a value byte dropped from a conforming stream: the next index
byte is stored as the value of the update, the next update is lost, its value byte is discarded, and every
other update is applied as sent. -/
def Obligations.DroppedValueByteMisvaluesOneUpdate : Prop :=
  ∀ (s : State) (before after : List (Byte × Byte)) (i v i' v' : Byte), s.phase = .seekIndex →
    conformingBytes (before ++ (i, v) :: (i', v') :: after) →
    consume s (commandBytes before ++ i :: i' :: v' :: commandBytes after) =
      consume s (commandBytes before ++ i :: i' :: commandBytes after) ∧
    discarded s (commandBytes before ++ i :: i' :: v' :: commandBytes after) = 1

/-- R253 (which the spec marks as derived): a duplicated byte of a conforming stream. (a) An index byte
doubled: the second one is the value of the update and the value byte is discarded. (b) A value byte
doubled: the second one is discarded. -/
def Obligations.DuplicatedByteDiscardsOneByte : Prop :=
  ∀ (s : State) (before after : List (Byte × Byte)) (i v : Byte), s.phase = .seekIndex →
    conformingBytes (before ++ (i, v) :: after) →
    consume s (commandBytes before ++ i :: i :: v :: commandBytes after) =
      consume s (commandBytes before ++ i :: i :: commandBytes after) ∧
    consume s (commandBytes before ++ i :: v :: v :: commandBytes after) =
      consume s (commandBytes before ++ i :: v :: commandBytes after) ∧
    discarded s (commandBytes before ++ i :: i :: v :: commandBytes after) = 1 ∧
    discarded s (commandBytes before ++ i :: v :: v :: commandBytes after) = 1

/-- R250: after one byte of a conforming stream is dropped or duplicated (with a whole command still to
come after the one struck), the decoder discards exactly one byte as junk: one byte at which it meets
`FramingDesync`, which leaves its state as it is. It is aligned again from there on: what is left are whole
commands of the stream as it was sent, and at most two commands are affected, the one struck and the next. -/
def Obligations.ResynchronisesWithinOneDiscardedByte : Prop :=
  ∀ (s : State) (before after : List (Byte × Byte)) (i v i' v' : Byte), s.phase = .seekIndex →
    conformingBytes (before ++ (i, v) :: (i', v') :: after) →
    ∀ disturbed ∈ [
      commandBytes before ++ v :: i' :: v' :: commandBytes after,
      commandBytes before ++ i :: i' :: v' :: commandBytes after,
      commandBytes before ++ i :: i :: v :: i' :: v' :: commandBytes after,
      commandBytes before ++ i :: v :: v :: i' :: v' :: commandBytes after],
    discarded s disturbed = 1 ∧
    (consume s disturbed).phase = .seekIndex ∧
    ∃ struck b cmds, disturbed = commandBytes before ++ struck ++ b :: commandBytes cmds ∧
      (cmds = (i', v') :: after ∨ cmds = after) ∧
      byteCondition (consume s (commandBytes before ++ struck)) b = some .framingDesync ∧
      decodeByte (consume s (commandBytes before ++ struck)) b =
        consume s (commandBytes before ++ struck)

/-- R254 (which the spec marks as derived): value bytes with bit 7 = 1 defeat resynchronisation: after a
lost index byte every later pair is read with the roles of its bytes exchanged. The stream is a value byte
followed by commands, all bytes with bit 7 = 1; no byte is discarded, the pairs taken as commands are each
value byte with the index byte after it, and the last value byte is latched as an index byte. -/
def Obligations.MarkedValueBytesDefeatResynchronisation : Prop :=
  ∀ (s : State) (v : Byte) (cmds : List (Byte × Byte)), s.phase = .seekIndex → isIndexByte v = true →
    (∀ c ∈ cmds, isIndexByte c.1 = true ∧ isIndexByte c.2 = true) →
    let values := v :: cmds.map Prod.snd
    let last := values.getLast (List.cons_ne_nil _ _)
    discarded s (v :: commandBytes cmds) = 0 ∧
    consume s (v :: commandBytes cmds) =
      latchIndex (pixelField last) (channelField last)
        (consume s (commandBytes (values.zip (cmds.map Prod.fst))))

/-- R261 (which the spec marks as derived): a byte with bit 7 = 0 sent after a pause leaves the decoder in
`SEEK_INDEX` in both cases: in `SEEK_INDEX` it is discarded, in `SEEK_VALUE` it is stored as the pending
command's value. However long the stall before it, the latched registers have not changed: a stall is steps
that change nothing, the model's choice (log entry 5), and a byte arrives by `deliver` (log entry 6). -/
def Obligations.OneLowByteRealignsAfterAPause : Prop :=
  ∀ (s : State) (b : Byte), s.quiescent → b.getLsbD 7 = false → 0 < s.fb.length →
    ∀ k, ∃ s' t, runSteps k s = .next s' ∧ s' = s ∧ step (deliver b s') = .next t ∧ t.rx = [] ∧
      t.phase = .seekIndex ∧
      (s.phase = .seekIndex → t = s) ∧
      (s.phase = .seekValue → s.ch ≠ 3#2 → StoresCell s.fb t.fb ⟨0, s.idx.toNat, s.ch.toNat⟩ b)

/-! ### What cannot matter -/

/-- R62: how a byte is decoded never depends on the content of the buffer, nor on the lines or the trace:
two states that agree on the decoder registers agree on them after any input. -/
def Obligations.DecodingIgnoresTheBuffer : Prop :=
  ∀ (s t : State) (bs : List Byte), s.phase = t.phase → s.idx = t.idx → s.ch = t.ch →
    (consume s bs).phase = (consume t bs).phase ∧ (consume s bs).idx = (consume t bs).idx ∧
    (consume s bs).ch = (consume t bs).ch

/-- R22, R23, R43: `IDX` and `CH` are never read before an index byte has written both: in `SEEK_INDEX`
their content makes no difference to anything but themselves, and none at all once an index byte has been
read. -/
def Obligations.LatchedFieldsAreNotReadInSeekIndex : Prop :=
  ∀ (s : State) (p : BitVec 5) (c : BitVec 2) (bs : List Byte), s.phase = .seekIndex →
    let t : State := { s with idx := p, ch := c }
    consume t bs = { consume s bs with idx := (consume t bs).idx, ch := (consume t bs).ch } ∧
    ((∃ b ∈ bs, isIndexByte b = true) → consume t bs = consume s bs)

/-! ### Invariants -/

/-- R35: the line registers and the direction latches follow from the trace, and every step keeps it so. -/
def Obligations.LinesFollowTraceIsKept : Prop :=
  ∀ s t : State, LinesFollowTrace s → step s = .next t → LinesFollowTrace t

/-- R26, R28: the buffer keeps its shape, and strips 1 and up hold `FB_RESET` for ever. -/
def Obligations.BufferShapeIsKept : Prop :=
  ∀ s t : State, BufferShape s → step s = .next t → BufferShape t

/-- R64, R135, R138, R139: what has been sent and is committed to be sent is always the initialisation
sequence followed by whole frames of buffers of `N_STRIPS` strips, the one in flight being of the buffer
as it stands; every step keeps it so. -/
def Obligations.TraceIsWholeFramesIsKept : Prop :=
  ∀ s t : State, BufferShape s → TraceIsWholeFrames s → step s = .next t → TraceIsWholeFrames t

/-- The three invariants hold right after reset, whatever input has been delivered. -/
def Obligations.InvariantsHoldAtReset : Prop :=
  ∀ bs : List Byte, LinesFollowTrace { State.reset with rx := bs } ∧
    BufferShape { State.reset with rx := bs } ∧ TraceIsWholeFrames { State.reset with rx := bs }

/-- R111, R113, R242: whenever the core is about to read a byte both lines are configured as outputs and
low, in every state that meets the invariants. -/
def Obligations.LinesAreLowBetweenBytes : Prop :=
  ∀ s : State, LinesFollowTrace s → BufferShape s → TraceIsWholeFrames s → s.readsNext →
    s.data = .low ∧ s.clock = .low ∧ s.dirData = .output ∧ s.dirClock = .output

/-! ### The cause of OutOfRangeWrite -/

/-- R203, R170: `OutOfRangeWrite` is met exactly on a value byte read while `CH` is not 3 and the triple
(0, `IDX`, `CH`) names no cell; the write is then dropped, `PH` returns to `SEEK_INDEX`, and nothing else
changes but the byte consumed. No run reaches such a state; that the guard looks at the strip is the spec's
own extension (D17). -/
def Obligations.OutOfRangeWriteCauseAndDrop : Prop :=
  ∀ s : State,
    (conditionMet s = some .outOfRangeWrite ↔
      s.readsNext ∧ s.phase = .seekValue ∧ s.ch ≠ 3#2 ∧ s.rx ≠ [] ∧
      namesCell s.fb (directCell s.idx s.ch) = false) ∧
    (conditionMet s = some .outOfRangeWrite →
      step s = .next { s with phase := .seekIndex, rx := s.rx.tail })

/-! ### The counters of the sequence in flight -/

/-- R40: the counters of either sequence and the number of its operations performed fix each other. After k
operations of a send the counters are those whose place in the send is k. Of an initialisation the first two
operations are the two `CfgOut`, at which no counter runs (log entry 13); after k operations, k at least 2,
the latch-byte, bit and bit-phase counters are in their ranges, their place is k, and the next operation is
the one they select. -/
def Obligations.CountersFollowOperationsPerformed : Prop :=
  ∀ (fb : FrameBuffer) (k : Nat),
    (k < 2328 * fb.length → (sendPos fb.length k).performed fb.length = k) ∧
    (k < 2 → initPos k = none ∧
      (initOps fb.length)[k]? = some (.cfgOut (if k = 0 then .data else .clock))) ∧
    (2 ≤ k → k < 2 + 24 * fb.length → ∃ j bit ph, initPos k = some (.latch j bit ph) ∧
      j < fb.length ∧ bit ≤ 7 ∧ ph ≤ 2 ∧ k = 2 + 24 * j + 3 * (7 - bit) + ph ∧
      (initOps fb.length)[k]? = opAtPos fb (.latch j bit ph))

/-- R39, R40: `PENDING` holds the counters. With what is left of a frame send after k operations pending they
are those of the send after k operations, and with what is left of the initialisation those of the
initialisation; with nothing pending there are none. In every state that meets the invariants the first
pending operation is a `CfgOut`, or the counters select it. -/
def Obligations.PendingHoldsTheCounters : Prop :=
  (∀ (s : State) (k : Nat), k < 2328 * s.fb.length → s.pending = (frameOps s.fb).drop k →
    counters s = some (sendPos s.fb.length k)) ∧
  (∀ (s : State) (k : Nat), k < 2 + 24 * s.fb.length → s.pending = (initOps s.fb.length).drop k →
    counters s = initPos k) ∧
  (∀ s : State, s.pending = [] → counters s = none) ∧
  (∀ (s : State) (op : LineOp) (ops : List LineOp), BufferShape s → TraceIsWholeFrames s →
    s.pending = op :: ops →
    (counters s = none ∧ ∃ l, op = .cfgOut l) ∨
    ∃ pos, counters s = some pos ∧ opAtPos s.fb pos = some op)
end

