-- ==== Sys2Proof/Laws/State.lean ====
section
/-! SUPPORT. What each named update of the state does to each field: one lemma per field per update, so
that no later proof unfolds a record update. -/

namespace Sys2Proof.Machine

/-! ### commit -/

@[simp] theorem commit_phase (ops : List LineOp) (s : State) :
    (commit ops s).phase = s.phase := rfl
@[simp] theorem commit_idx (ops : List LineOp) (s : State) :
    (commit ops s).idx = s.idx := rfl
@[simp] theorem commit_ch (ops : List LineOp) (s : State) : (commit ops s).ch = s.ch := rfl
@[simp] theorem commit_fb (ops : List LineOp) (s : State) : (commit ops s).fb = s.fb := rfl
@[simp] theorem commit_data (ops : List LineOp) (s : State) :
    (commit ops s).data = s.data := rfl
@[simp] theorem commit_clock (ops : List LineOp) (s : State) :
    (commit ops s).clock = s.clock := rfl
@[simp] theorem commit_dirData (ops : List LineOp) (s : State) :
    (commit ops s).dirData = s.dirData := rfl
@[simp] theorem commit_dirClock (ops : List LineOp) (s : State) :
    (commit ops s).dirClock = s.dirClock := rfl
@[simp] theorem commit_pending (ops : List LineOp) (s : State) :
    (commit ops s).pending = s.pending ++ ops := rfl
@[simp] theorem commit_stage (ops : List LineOp) (s : State) :
    (commit ops s).stage = s.stage := rfl
@[simp] theorem commit_rx (ops : List LineOp) (s : State) : (commit ops s).rx = s.rx := rfl
@[simp] theorem commit_trace (ops : List LineOp) (s : State) :
    (commit ops s).trace = s.trace := rfl

/-! ### startSend -/

@[simp] theorem startSend_phase (s : State) : (startSend s).phase = s.phase := rfl
@[simp] theorem startSend_idx (s : State) : (startSend s).idx = s.idx := rfl
@[simp] theorem startSend_ch (s : State) : (startSend s).ch = s.ch := rfl
@[simp] theorem startSend_fb (s : State) : (startSend s).fb = s.fb := rfl
@[simp] theorem startSend_data (s : State) : (startSend s).data = s.data := rfl
@[simp] theorem startSend_clock (s : State) : (startSend s).clock = s.clock := rfl
@[simp] theorem startSend_dirData (s : State) : (startSend s).dirData = s.dirData := rfl
@[simp] theorem startSend_dirClock (s : State) : (startSend s).dirClock = s.dirClock := rfl
@[simp] theorem startSend_pending (s : State) :
    (startSend s).pending = s.pending ++ frameOps s.fb := rfl
@[simp] theorem startSend_stage (s : State) : (startSend s).stage = s.stage := rfl
@[simp] theorem startSend_rx (s : State) : (startSend s).rx = s.rx := rfl
@[simp] theorem startSend_trace (s : State) : (startSend s).trace = s.trace := rfl

/-! ### beginInit -/

@[simp] theorem beginInit_phase (s : State) : (beginInit s).phase = s.phase := rfl
@[simp] theorem beginInit_idx (s : State) : (beginInit s).idx = s.idx := rfl
@[simp] theorem beginInit_ch (s : State) : (beginInit s).ch = s.ch := rfl
@[simp] theorem beginInit_fb (s : State) : (beginInit s).fb = s.fb := rfl
@[simp] theorem beginInit_data (s : State) : (beginInit s).data = s.data := rfl
@[simp] theorem beginInit_clock (s : State) : (beginInit s).clock = s.clock := rfl
@[simp] theorem beginInit_dirData (s : State) : (beginInit s).dirData = s.dirData := rfl
@[simp] theorem beginInit_dirClock (s : State) : (beginInit s).dirClock = s.dirClock := rfl
@[simp] theorem beginInit_pending (s : State) :
    (beginInit s).pending = s.pending ++ initOps s.fb.length := rfl
@[simp] theorem beginInit_stage (s : State) : (beginInit s).stage = .running := rfl
@[simp] theorem beginInit_rx (s : State) : (beginInit s).rx = s.rx := rfl
@[simp] theorem beginInit_trace (s : State) : (beginInit s).trace = s.trace := rfl

/-! ### latchIndex -/

@[simp] theorem latchIndex_phase (p : BitVec 5) (c : BitVec 2) (s : State) :
    (latchIndex p c s).phase = .seekValue := rfl
@[simp] theorem latchIndex_idx (p : BitVec 5) (c : BitVec 2) (s : State) :
    (latchIndex p c s).idx = p := rfl
@[simp] theorem latchIndex_ch (p : BitVec 5) (c : BitVec 2) (s : State) :
    (latchIndex p c s).ch = c := rfl
@[simp] theorem latchIndex_fb (p : BitVec 5) (c : BitVec 2) (s : State) :
    (latchIndex p c s).fb = s.fb := rfl
@[simp] theorem latchIndex_data (p : BitVec 5) (c : BitVec 2) (s : State) :
    (latchIndex p c s).data = s.data := rfl
@[simp] theorem latchIndex_clock (p : BitVec 5) (c : BitVec 2) (s : State) :
    (latchIndex p c s).clock = s.clock := rfl
@[simp] theorem latchIndex_dirData (p : BitVec 5) (c : BitVec 2) (s : State) :
    (latchIndex p c s).dirData = s.dirData := rfl
@[simp] theorem latchIndex_dirClock (p : BitVec 5) (c : BitVec 2) (s : State) :
    (latchIndex p c s).dirClock = s.dirClock := rfl
@[simp] theorem latchIndex_pending (p : BitVec 5) (c : BitVec 2) (s : State) :
    (latchIndex p c s).pending = s.pending := rfl
@[simp] theorem latchIndex_stage (p : BitVec 5) (c : BitVec 2) (s : State) :
    (latchIndex p c s).stage = s.stage := rfl
@[simp] theorem latchIndex_rx (p : BitVec 5) (c : BitVec 2) (s : State) :
    (latchIndex p c s).rx = s.rx := rfl
@[simp] theorem latchIndex_trace (p : BitVec 5) (c : BitVec 2) (s : State) :
    (latchIndex p c s).trace = s.trace := rfl

/-! ### endUnit -/

@[simp] theorem endUnit_phase (s : State) : (endUnit s).phase = .seekIndex := rfl
@[simp] theorem endUnit_idx (s : State) : (endUnit s).idx = s.idx := rfl
@[simp] theorem endUnit_ch (s : State) : (endUnit s).ch = s.ch := rfl
@[simp] theorem endUnit_fb (s : State) : (endUnit s).fb = s.fb := rfl
@[simp] theorem endUnit_data (s : State) : (endUnit s).data = s.data := rfl
@[simp] theorem endUnit_clock (s : State) : (endUnit s).clock = s.clock := rfl
@[simp] theorem endUnit_dirData (s : State) : (endUnit s).dirData = s.dirData := rfl
@[simp] theorem endUnit_dirClock (s : State) : (endUnit s).dirClock = s.dirClock := rfl
@[simp] theorem endUnit_pending (s : State) : (endUnit s).pending = s.pending := rfl
@[simp] theorem endUnit_stage (s : State) : (endUnit s).stage = s.stage := rfl
@[simp] theorem endUnit_rx (s : State) : (endUnit s).rx = s.rx := rfl
@[simp] theorem endUnit_trace (s : State) : (endUnit s).trace = s.trace := rfl

/-! ### storeCell -/

@[simp] theorem storeCell_phase (a : CellAddr) (v : Byte) (s : State) :
    (storeCell a v s).phase = s.phase := rfl
@[simp] theorem storeCell_idx (a : CellAddr) (v : Byte) (s : State) :
    (storeCell a v s).idx = s.idx := rfl
@[simp] theorem storeCell_ch (a : CellAddr) (v : Byte) (s : State) :
    (storeCell a v s).ch = s.ch := rfl
@[simp] theorem storeCell_fb (a : CellAddr) (v : Byte) (s : State) :
    (storeCell a v s).fb = (fbWrite s.fb a v).1 := rfl
@[simp] theorem storeCell_data (a : CellAddr) (v : Byte) (s : State) :
    (storeCell a v s).data = s.data := rfl
@[simp] theorem storeCell_clock (a : CellAddr) (v : Byte) (s : State) :
    (storeCell a v s).clock = s.clock := rfl
@[simp] theorem storeCell_dirData (a : CellAddr) (v : Byte) (s : State) :
    (storeCell a v s).dirData = s.dirData := rfl
@[simp] theorem storeCell_dirClock (a : CellAddr) (v : Byte) (s : State) :
    (storeCell a v s).dirClock = s.dirClock := rfl
@[simp] theorem storeCell_pending (a : CellAddr) (v : Byte) (s : State) :
    (storeCell a v s).pending = s.pending := rfl
@[simp] theorem storeCell_stage (a : CellAddr) (v : Byte) (s : State) :
    (storeCell a v s).stage = s.stage := rfl
@[simp] theorem storeCell_rx (a : CellAddr) (v : Byte) (s : State) :
    (storeCell a v s).rx = s.rx := rfl
@[simp] theorem storeCell_trace (a : CellAddr) (v : Byte) (s : State) :
    (storeCell a v s).trace = s.trace := rfl

/-! ### deliver -/

@[simp] theorem deliver_phase (b : Byte) (s : State) : (deliver b s).phase = s.phase := rfl
@[simp] theorem deliver_idx (b : Byte) (s : State) : (deliver b s).idx = s.idx := rfl
@[simp] theorem deliver_ch (b : Byte) (s : State) : (deliver b s).ch = s.ch := rfl
@[simp] theorem deliver_fb (b : Byte) (s : State) : (deliver b s).fb = s.fb := rfl
@[simp] theorem deliver_data (b : Byte) (s : State) : (deliver b s).data = s.data := rfl
@[simp] theorem deliver_clock (b : Byte) (s : State) : (deliver b s).clock = s.clock := rfl
@[simp] theorem deliver_dirData (b : Byte) (s : State) :
    (deliver b s).dirData = s.dirData := rfl
@[simp] theorem deliver_dirClock (b : Byte) (s : State) :
    (deliver b s).dirClock = s.dirClock := rfl
@[simp] theorem deliver_pending (b : Byte) (s : State) :
    (deliver b s).pending = s.pending := rfl
@[simp] theorem deliver_stage (b : Byte) (s : State) : (deliver b s).stage = s.stage := rfl
@[simp] theorem deliver_rx (b : Byte) (s : State) : (deliver b s).rx = s.rx ++ [b] := rfl
@[simp] theorem deliver_trace (b : Byte) (s : State) : (deliver b s).trace = s.trace := rfl

/-! ### withRx -/

@[simp] theorem withRx_phase (bs : List Byte) (s : State) :
    (withRx bs s).phase = s.phase := rfl
@[simp] theorem withRx_idx (bs : List Byte) (s : State) : (withRx bs s).idx = s.idx := rfl
@[simp] theorem withRx_ch (bs : List Byte) (s : State) : (withRx bs s).ch = s.ch := rfl
@[simp] theorem withRx_fb (bs : List Byte) (s : State) : (withRx bs s).fb = s.fb := rfl
@[simp] theorem withRx_data (bs : List Byte) (s : State) :
    (withRx bs s).data = s.data := rfl
@[simp] theorem withRx_clock (bs : List Byte) (s : State) :
    (withRx bs s).clock = s.clock := rfl
@[simp] theorem withRx_dirData (bs : List Byte) (s : State) :
    (withRx bs s).dirData = s.dirData := rfl
@[simp] theorem withRx_dirClock (bs : List Byte) (s : State) :
    (withRx bs s).dirClock = s.dirClock := rfl
@[simp] theorem withRx_pending (bs : List Byte) (s : State) :
    (withRx bs s).pending = s.pending := rfl
@[simp] theorem withRx_stage (bs : List Byte) (s : State) :
    (withRx bs s).stage = s.stage := rfl
@[simp] theorem withRx_rx (bs : List Byte) (s : State) : (withRx bs s).rx = bs := rfl
@[simp] theorem withRx_trace (bs : List Byte) (s : State) :
    (withRx bs s).trace = s.trace := rfl

/-! ### gpioCfgOut -/

@[simp] theorem gpioCfgOut_phase (l : Line) (s : State) :
    (gpioCfgOut l s).phase = s.phase := by cases l <;> rfl
@[simp] theorem gpioCfgOut_idx (l : Line) (s : State) :
    (gpioCfgOut l s).idx = s.idx := by cases l <;> rfl
@[simp] theorem gpioCfgOut_ch (l : Line) (s : State) :
    (gpioCfgOut l s).ch = s.ch := by cases l <;> rfl
@[simp] theorem gpioCfgOut_fb (l : Line) (s : State) :
    (gpioCfgOut l s).fb = s.fb := by cases l <;> rfl
@[simp] theorem gpioCfgOut_data (l : Line) (s : State) :
    (gpioCfgOut l s).data = s.data := by cases l <;> rfl
@[simp] theorem gpioCfgOut_clock (l : Line) (s : State) :
    (gpioCfgOut l s).clock = s.clock := by cases l <;> rfl
@[simp] theorem gpioCfgOut_dirData (l : Line) (s : State) :
    (gpioCfgOut l s).dirData = if l = .data then .output else s.dirData := by cases l <;> rfl
@[simp] theorem gpioCfgOut_dirClock (l : Line) (s : State) :
    (gpioCfgOut l s).dirClock = if l = .clock then .output else s.dirClock := by cases l <;> rfl
@[simp] theorem gpioCfgOut_pending (l : Line) (s : State) :
    (gpioCfgOut l s).pending = s.pending := by cases l <;> rfl
@[simp] theorem gpioCfgOut_stage (l : Line) (s : State) :
    (gpioCfgOut l s).stage = s.stage := by cases l <;> rfl
@[simp] theorem gpioCfgOut_rx (l : Line) (s : State) :
    (gpioCfgOut l s).rx = s.rx := by cases l <;> rfl
@[simp] theorem gpioCfgOut_trace (l : Line) (s : State) :
    (gpioCfgOut l s).trace = s.trace ++ [.cfgOut l] := by cases l <;> rfl

/-! ### gpioSet -/

@[simp] theorem gpioSet_phase (l : Line) (b : Bool) (s : State) :
    (gpioSet l b s).phase = s.phase := by cases l <;> rfl
@[simp] theorem gpioSet_idx (l : Line) (b : Bool) (s : State) :
    (gpioSet l b s).idx = s.idx := by cases l <;> rfl
@[simp] theorem gpioSet_ch (l : Line) (b : Bool) (s : State) :
    (gpioSet l b s).ch = s.ch := by cases l <;> rfl
@[simp] theorem gpioSet_fb (l : Line) (b : Bool) (s : State) :
    (gpioSet l b s).fb = s.fb := by cases l <;> rfl
@[simp] theorem gpioSet_data (l : Line) (b : Bool) (s : State) :
    (gpioSet l b s).data = if l = .data then Level.ofBit b else s.data := by cases l <;> rfl
@[simp] theorem gpioSet_clock (l : Line) (b : Bool) (s : State) :
    (gpioSet l b s).clock = if l = .clock then Level.ofBit b else s.clock := by cases l <;> rfl
@[simp] theorem gpioSet_dirData (l : Line) (b : Bool) (s : State) :
    (gpioSet l b s).dirData = s.dirData := by cases l <;> rfl
@[simp] theorem gpioSet_dirClock (l : Line) (b : Bool) (s : State) :
    (gpioSet l b s).dirClock = s.dirClock := by cases l <;> rfl
@[simp] theorem gpioSet_pending (l : Line) (b : Bool) (s : State) :
    (gpioSet l b s).pending = s.pending := by cases l <;> rfl
@[simp] theorem gpioSet_stage (l : Line) (b : Bool) (s : State) :
    (gpioSet l b s).stage = s.stage := by cases l <;> rfl
@[simp] theorem gpioSet_rx (l : Line) (b : Bool) (s : State) :
    (gpioSet l b s).rx = s.rx := by cases l <;> rfl
@[simp] theorem gpioSet_trace (l : Line) (b : Bool) (s : State) :
    (gpioSet l b s).trace = s.trace ++ [.set l b] := by cases l <;> rfl

/-! ### performOp -/

@[simp] theorem performOp_phase (op : LineOp) (s : State) :
    (performOp op s).phase = s.phase := by rcases op with l | ⟨l, b⟩ <;> cases l <;> rfl
@[simp] theorem performOp_idx (op : LineOp) (s : State) :
    (performOp op s).idx = s.idx := by rcases op with l | ⟨l, b⟩ <;> cases l <;> rfl
@[simp] theorem performOp_ch (op : LineOp) (s : State) :
    (performOp op s).ch = s.ch := by rcases op with l | ⟨l, b⟩ <;> cases l <;> rfl
@[simp] theorem performOp_fb (op : LineOp) (s : State) :
    (performOp op s).fb = s.fb := by rcases op with l | ⟨l, b⟩ <;> cases l <;> rfl
@[simp] theorem performOp_pending (op : LineOp) (s : State) :
    (performOp op s).pending = s.pending := by rcases op with l | ⟨l, b⟩ <;> cases l <;> rfl
@[simp] theorem performOp_stage (op : LineOp) (s : State) :
    (performOp op s).stage = s.stage := by rcases op with l | ⟨l, b⟩ <;> cases l <;> rfl
@[simp] theorem performOp_rx (op : LineOp) (s : State) :
    (performOp op s).rx = s.rx := by rcases op with l | ⟨l, b⟩ <;> cases l <;> rfl
@[simp] theorem performOp_trace (op : LineOp) (s : State) :
    (performOp op s).trace = s.trace ++ [op] := by rcases op with l | ⟨l, b⟩ <;> cases l <;> rfl

/-! ### completionTrigger -/

@[simp] theorem completionTrigger_phase (ok : Bool) (p : BitVec 5) (s : State) :
    (completionTrigger ok p s).phase = s.phase := rfl
@[simp] theorem completionTrigger_idx (ok : Bool) (p : BitVec 5) (s : State) :
    (completionTrigger ok p s).idx = s.idx := rfl
@[simp] theorem completionTrigger_ch (ok : Bool) (p : BitVec 5) (s : State) :
    (completionTrigger ok p s).ch = s.ch := rfl
@[simp] theorem completionTrigger_fb (ok : Bool) (p : BitVec 5) (s : State) :
    (completionTrigger ok p s).fb = s.fb := rfl
@[simp] theorem completionTrigger_data (ok : Bool) (p : BitVec 5) (s : State) :
    (completionTrigger ok p s).data = s.data := rfl
@[simp] theorem completionTrigger_clock (ok : Bool) (p : BitVec 5) (s : State) :
    (completionTrigger ok p s).clock = s.clock := rfl
@[simp] theorem completionTrigger_dirData (ok : Bool) (p : BitVec 5) (s : State) :
    (completionTrigger ok p s).dirData = s.dirData := rfl
@[simp] theorem completionTrigger_dirClock (ok : Bool) (p : BitVec 5) (s : State) :
    (completionTrigger ok p s).dirClock = s.dirClock := rfl
@[simp] theorem completionTrigger_pending (ok : Bool) (p : BitVec 5) (s : State) :
    (completionTrigger ok p s).pending = if p == triggerPixel && ok then s.pending ++ frameOps s.fb else s.pending := rfl
@[simp] theorem completionTrigger_stage (ok : Bool) (p : BitVec 5) (s : State) :
    (completionTrigger ok p s).stage = s.stage := rfl
@[simp] theorem completionTrigger_rx (ok : Bool) (p : BitVec 5) (s : State) :
    (completionTrigger ok p s).rx = s.rx := rfl
@[simp] theorem completionTrigger_trace (ok : Bool) (p : BitVec 5) (s : State) :
    (completionTrigger ok p s).trace = s.trace := rfl

/-- The trigger changes `PENDING` alone. -/
theorem completionTrigger_eq (ok : Bool) (p : BitVec 5) (s : State) :
    completionTrigger ok p s = { s with
      pending := if p == triggerPixel && ok then s.pending ++ frameOps s.fb else s.pending } := rfl

end Sys2Proof.Machine
end

