-- ==== Sys2Proof/Laws/Buffer.lean ====
section
/-! SUPPORT. The Pixel Frame Buffer: which triples have a reading, what a write does to every reading, and
that every operation keeps the form of the memory. -/

namespace Sys2Proof.Machine

theorem namesCell_iff (fb : FrameBuffer) (a : CellAddr) :
    namesCell fb a = true ↔ a.strip < fb.length ∧ a.pixel < 32 ∧ a.channel < 3 := by
  simp [namesCell, and_assoc]

/-- A channel number below 3 names a cell of a colour, and no other does. -/
theorem Color.cell?_isSome (col : Color) (c : Nat) : (col.cell? c).isSome = decide (c < 3) := by
  rcases c with _ | _ | _ | c <;> simp [Color.cell?]

/-- Reading a colour after one of its cells was replaced. -/
theorem Color.cell?_put (col : Color) (c d : Nat) (v : Byte) :
    (col.put c v).cell? d = if d = c ∧ c < 3 then some v else col.cell? d := by
  rcases c with _ | _ | _ | c <;> rcases d with _ | _ | _ | d <;> simp [Color.cell?, Color.put]

/-- Reading a strip after one of its cells was replaced. -/
theorem Strip.getElem?_put (st : Strip) (p c q : Nat) (v : Byte) :
    (st.put p c v)[q]? = if q = p then st[q]?.map (fun col => col.put c v) else st[q]? := by
  unfold Strip.put
  split
  · rename_i h
    rw [Vector.getElem?_set]
    by_cases hq : q = p
    · subst hq; simp [h]
    · simp [hq, Ne.symm hq]
  · rename_i h
    by_cases hq : q = p
    · subst hq; simp [h]
    · simp [hq]

/-- A triple has a reading exactly when it names a cell. -/
theorem fbRead_isSome (fb : FrameBuffer) (a : CellAddr) : (fbRead fb a).isSome = namesCell fb a := by
  unfold fbRead namesCell
  rcases hs : fb[a.strip]? with _ | st
  · have := List.getElem?_eq_none_iff.mp hs
    simp [this]
  · obtain ⟨h, -⟩ := List.getElem?_eq_some_iff.mp hs
    rcases hp : st[a.pixel]? with _ | col
    · have := Vector.getElem?_eq_none_iff.mp hp
      simp [this]
    · obtain ⟨h', -⟩ := Vector.getElem?_eq_some_iff.mp hp
      simp [h, h', Color.cell?_isSome]

/-- The guard of a write is what tells whether it happened. -/
@[simp] theorem fbWrite_happens (fb : FrameBuffer) (a : CellAddr) (v : Byte) :
    (fbWrite fb a v).2 = namesCell fb a := by
  unfold fbWrite; split <;> simp_all

/-- A write outside the cells is dropped. -/
theorem fbWrite_dropped (fb : FrameBuffer) (a : CellAddr) (v : Byte) (h : namesCell fb a = false) :
    fbWrite fb a v = (fb, false) := by
  simp [fbWrite, h]

/-- No write adds or removes a strip. -/
@[simp] theorem fbWrite_length (fb : FrameBuffer) (a : CellAddr) (v : Byte) :
    (fbWrite fb a v).1.length = fb.length := by
  unfold fbWrite; split <;> simp

/-- What any triple reads as after a write. -/
theorem fbRead_fbWrite (fb : FrameBuffer) (a b : CellAddr) (v : Byte) :
    fbRead (fbWrite fb a v).1 b = if b = a ∧ namesCell fb a = true then some v else fbRead fb b := by
  by_cases h : namesCell fb a = true
  · obtain ⟨h1, h2, h3⟩ := (namesCell_iff fb a).mp h
    obtain ⟨s, p, c⟩ := a
    obtain ⟨s', p', c'⟩ := b
    simp only [fbWrite, h, if_true, fbRead, List.getElem?_modify, and_true, CellAddr.mk.injEq]
    by_cases hs : s = s'
    · subst hs
      simp only at h1 h2 h3
      simp only [List.getElem?_eq_getElem h1, Option.map_eq_map, Option.map_some, if_true, true_and]
      rw [Strip.getElem?_put]
      by_cases hp : p' = p
      · subst hp
        simp only [Vector.getElem?_eq_getElem h2, Option.map_some, if_true, true_and, Color.cell?_put]
        simp [h3]
      · simp [hp]
    · simp [Ne.symm hs, hs]
  · simp [fbWrite, h]

/-- Every write keeps the form of the memory. -/
theorem Memory.wf_fbWrite (fb : FrameBuffer) (a : CellAddr) (v : Byte) (h : Memory.wf fb = true) :
    Memory.wf (fbWrite fb a v).1 = true := by
  simpa [Memory.wf] using h

/-- The reset buffer is strips 0 to `N_STRIPS` - 1 in order. -/
theorem FrameBuffer.reset_eq : FrameBuffer.reset = (List.range Config.nStrips).map Strip.reset := by
  simp [FrameBuffer.reset, Config.nStrips, List.range_succ_eq_map, Function.comp_def]

/-- The reset buffer has its `N_STRIPS` strips. -/
@[simp] theorem FrameBuffer.reset_length : FrameBuffer.reset.length = Config.nStrips := by
  simp [FrameBuffer.reset, Config.nStrips]

theorem Config.nStrips_pos : 0 < Config.nStrips := Nat.succ_pos _

/-- Every cell that exists holds `FB_RESET` right after reset (R27). -/
theorem fbRead_reset (a : CellAddr) (hs : a.strip < Config.nStrips) (hp : a.pixel < 32) (hc : a.channel < 3) :
    fbRead FrameBuffer.reset a = some (Config.fbReset a.strip a.pixel a.channel) := by
  obtain ⟨s, p, c⟩ := a
  simp only at hs hp hc
  simp only [fbRead, FrameBuffer.reset_eq, Strip.reset, List.getElem?_map, List.getElem?_range hs,
    Option.map_some]
  rw [Vector.getElem?_eq_getElem hp]
  simp only [Vector.getElem_ofFn]
  rcases c with _ | _ | _ | c <;> first | rfl | omega

/-- The reset memory has the form. -/
theorem Memory.wf_reset : Memory.wf State.reset.fb = true := by
  simp [Memory.wf, State.reset, Config.nStrips_pos]

end Sys2Proof.Machine
end

