-- ==== Sys2Proof/Laws/Decode.lean ====
section
/-! SUPPORT. The small lemmas of the fields, the index byte and the command they make up. -/

namespace Sys2Proof

@[simp] theorem isIndexByte_indexByte (p : BitVec 5) (c : BitVec 2) :
    isIndexByte (indexByte p c) = true := by
  revert p c; decide

@[simp] theorem pixelField_indexByte (p : BitVec 5) (c : BitVec 2) :
    pixelField (indexByte p c) = p := by
  revert p c; decide

@[simp] theorem channelField_indexByte (p : BitVec 5) (c : BitVec 2) :
    channelField (indexByte p c) = c := by
  revert p c; decide

/-- An index byte is the one its own fields make up. -/
theorem indexByte_of_fields (b : Byte) (h : isIndexByte b = true) :
    indexByte (pixelField b) (channelField b) = b := by
  revert b; decide

@[simp] theorem commandOf_red (p : BitVec 5) (v : Byte) : commandOf p redSelector v = .setr p v := rfl
@[simp] theorem commandOf_green (p : BitVec 5) (v : Byte) :
    commandOf p greenSelector v = .setg p v := rfl
@[simp] theorem commandOf_blue (p : BitVec 5) (v : Byte) : commandOf p blueSelector v = .setb p v := rfl
@[simp] theorem commandOf_reserved (p : BitVec 5) (v : Byte) :
    commandOf p reservedSelector v = .skip p v := rfl

/-- A channel selector is one of the four. -/
theorem selector_cases (c : BitVec 2) :
    c = redSelector ∨ c = greenSelector ∨ c = blueSelector ∨ c = reservedSelector := by
  revert c; decide

/-- Every command is well formed. -/
@[simp] theorem commandOf_wf (p : BitVec 5) (c : BitVec 2) (v : Byte) :
    (commandOf p c v).wf = true := by
  rcases selector_cases c with rfl | rfl | rfl | rfl <;> rfl

/-- The bytes of a command: the index byte of its fields, then its value byte. -/
@[simp] theorem encode_commandOf (p : BitVec 5) (c : BitVec 2) (v : Byte) :
    encode (commandOf p c v) = [indexByte p c, v] := by
  rcases selector_cases c with rfl | rfl | rfl | rfl <;> rfl

@[simp] theorem decode_nil : decode [] = .rejected .noByte := rfl

/-- A byte with the marker clear is a junk unit. -/
theorem decode_of_not_index (b : Byte) (rest : List Byte) (h : isIndexByte b = false) :
    decode (b :: rest) = .unit (.junk b) rest := by
  simp [decode, h]

/-- A byte with the marker set and the byte after it are a command. -/
theorem decode_of_index (b v : Byte) (rest : List Byte) (h : isIndexByte b = true) :
    decode (b :: v :: rest) = .unit (commandOf (pixelField b) (channelField b) v) rest := by
  simp [decode, h]

end Sys2Proof
end

