-- ==== Sys2Proof/Laws/Lines.lean ====
section
/-! SUPPORT. Line operations: performing a list of them, and the sizes of what is sent. -/

namespace Sys2Proof.Machine

@[simp] theorem performAll_nil (s : State) : performAll [] s = s := rfl

@[simp] theorem performAll_cons (op : LineOp) (ops : List LineOp) (s : State) :
    performAll (op :: ops) s = performAll ops (performOp op s) := rfl

@[simp] theorem performAll_append (ops ops' : List LineOp) (s : State) :
    performAll (ops ++ ops') s = performAll ops' (performAll ops s) := by
  simp [performAll]

/-- Performing operations appends them to the trace. -/
@[simp] theorem performAll_trace (ops : List LineOp) (s : State) :
    (performAll ops s).trace = s.trace ++ ops := by
  induction ops generalizing s <;> simp_all

@[simp] theorem performAll_fb (ops : List LineOp) (s : State) : (performAll ops s).fb = s.fb := by
  induction ops generalizing s <;> simp_all

@[simp] theorem performAll_phase (ops : List LineOp) (s : State) :
    (performAll ops s).phase = s.phase := by
  induction ops generalizing s <;> simp_all

@[simp] theorem performAll_idx (ops : List LineOp) (s : State) : (performAll ops s).idx = s.idx := by
  induction ops generalizing s <;> simp_all

@[simp] theorem performAll_ch (ops : List LineOp) (s : State) : (performAll ops s).ch = s.ch := by
  induction ops generalizing s <;> simp_all

@[simp] theorem performAll_rx (ops : List LineOp) (s : State) : (performAll ops s).rx = s.rx := by
  induction ops generalizing s <;> simp_all

@[simp] theorem performAll_stage (ops : List LineOp) (s : State) :
    (performAll ops s).stage = s.stage := by
  induction ops generalizing s <;> simp_all

@[simp] theorem performAll_pending (ops : List LineOp) (s : State) :
    (performAll ops s).pending = s.pending := by
  induction ops generalizing s <;> simp_all

@[simp] theorem emitOps_length (v : Byte) : (emitOps v).length = 24 := rfl

/-- A concatenation of emitted bytes is 24 operations a byte. -/
@[simp] theorem flatMap_emitOps_length (bs : List Byte) : (bs.flatMap emitOps).length = 24 * bs.length := by
  induction bs with
  | nil => rfl
  | cons b bs ih => simp [ih]; omega

/-- `emit_byte` performs the operations of its trace. -/
theorem emitByte_eq (v : Byte) (s : State) : emitByte v s = performAll (emitOps v) s := rfl

/-- Indexing a concatenation of blocks of one length: entry `j` of block `i`. -/
theorem getElem?_flatMap_block {α β : Type} {f : α → List β} {n : Nat} (hf : ∀ x, (f x).length = n)
    (l : List α) (i j : Nat) (hj : j < n) :
    (l.flatMap f)[n * i + j]? = l[i]?.bind fun x => (f x)[j]? := by
  induction l generalizing i with
  | nil => simp
  | cons x l ih =>
    rw [List.flatMap_cons]
    cases i with
    | zero => simp [List.getElem?_append_left (l₁ := f x) (by rw [hf]; exact hj)]
    | succ i =>
      rw [List.getElem?_append_right (by rw [hf]; nlinarith), hf,
        show n * (i + 1) + j - n = n * i + j by rw [Nat.mul_succ]; omega, ih]
      simp

/-- The length of a concatenation of blocks of one length. -/
theorem length_flatMap_block {α β : Type} {f : α → List β} {n : Nat} (hf : ∀ x, (f x).length = n)
    (l : List α) : (l.flatMap f).length = n * l.length := by
  induction l with
  | nil => simp
  | cons x l ih => rw [List.flatMap_cons, List.length_append, hf, ih, List.length_cons]; ring

/-- The initialisation of `n` strips is 2 + 24 x `n` operations (R242). -/
@[simp] theorem initOps_length (n : Nat) : (initOps n).length = 2 + 24 * n := by
  simp [initOps]; omega

@[simp] theorem pixelWireBytes_length (col : Color) : (pixelWireBytes col).length = 3 := rfl

/-- The pixel data of one strip is 96 bytes. -/
theorem stripWireBytes_length (st : Strip) : (st.toList.flatMap pixelWireBytes).length = 96 := by
  rw [length_flatMap_block pixelWireBytes_length]; simp only [Vector.length_toList, Config.pixelsPerStrip]

end Sys2Proof.Machine
end

