-- ==== Sys2Proof/Laws/Step.lean ====
section
/-! SUPPORT. What the meanings and a step can do, said once. -/

namespace Sys2Proof.Machine

/-- A command's meaning, in the form the decoder's registers give it. -/
theorem exec_commandOf (p : BitVec 5) (c : BitVec 2) (v : Byte) (s : State) :
    exec (commandOf p c v) s =
      if c = reservedSelector then .next (endUnit (latchIndex p c s))
      else .next (endUnit (completionTrigger
        (namesCell s.fb (directCell p c) && c == blueSelector) p
          (storeCell (directCell p c) v (latchIndex p c s)))) := by
  rcases selector_cases c with rfl | rfl | rfl | rfl
  · rw [commandOf_red]
    simp [exec, execSetr, completionTrigger, redSelector, blueSelector, reservedSelector]
    rfl
  · rw [commandOf_green]
    simp [exec, execSetg, completionTrigger, greenSelector, blueSelector, reservedSelector]
    rfl
  · rw [commandOf_blue]
    simp [exec, execSetb, blueSelector, reservedSelector]
  · simp [exec, execSkip]

/-- No unit's meaning stops. -/
theorem exec_next (i : Instr) (s : State) : ∃ t, exec i s = .next t := by
  cases i <;> exact ⟨_, rfl⟩

theorem step_of_resetting {s : State} (h : s.stage = .resetting) : step s = .next (beginInit s) := by
  simp [step, nextTurn, h]

theorem step_of_pending {s : State} {op : LineOp} {ops : List LineOp} (h : s.stage = .running)
    (hp : s.pending = op :: ops) : step s = .next (performOp op { s with pending := ops }) := by
  simp [step, nextTurn, h, hp]

theorem step_of_blocked {s : State} (h : s.quiescent) : step s = .next s := by
  obtain ⟨⟨h, hp⟩, hr⟩ := h
  simp [step, nextTurn, h, hp, hr]

theorem step_of_index {s : State} {b : Byte} {rest : List Byte} (h : s.atBoundary)
    (hr : s.rx = b :: rest) (hb : isIndexByte b = true) :
    step s = .next (latchIndex (pixelField b) (channelField b) (withRx rest s)) := by
  obtain ⟨⟨h, hp⟩, hph⟩ := h
  simp [step, nextTurn, h, hp, hr, handleByte, hph, hb]

theorem step_of_junk {s : State} {b : Byte} {rest : List Byte} (h : s.atBoundary)
    (hr : s.rx = b :: rest) (hb : isIndexByte b = false) :
    step s = exec (.junk b) (withRx rest s) := by
  obtain ⟨⟨h, hp⟩, hph⟩ := h
  simp [step, nextTurn, h, hp, hr, handleByte, hph, hb]

theorem step_of_value {s : State} {b : Byte} {rest : List Byte} (h : s.readsNext)
    (hph : s.phase = .seekValue) (hr : s.rx = b :: rest) :
    step s = exec (commandOf s.idx s.ch b) (withRx rest s) := by
  obtain ⟨h, hp⟩ := h
  simp [step, nextTurn, h, hp, hr, handleByte, hph]

/-- The six things a step can do. -/
theorem step_cases {s t : State} (h : step s = .next t) :
    (s.stage = .resetting ∧ t = beginInit s) ∨
    (s.stage = .running ∧ ∃ op ops, s.pending = op :: ops ∧
      t = performOp op { s with pending := ops }) ∨
    (s.quiescent ∧ t = s) ∨
    (s.atBoundary ∧ ∃ b rest, s.rx = b :: rest ∧ isIndexByte b = true ∧
      t = latchIndex (pixelField b) (channelField b) (withRx rest s)) ∨
    (s.atBoundary ∧ ∃ b rest, s.rx = b :: rest ∧ isIndexByte b = false ∧ t = withRx rest s) ∨
    (s.readsNext ∧ s.phase = .seekValue ∧ ∃ b rest, s.rx = b :: rest ∧
      exec (commandOf s.idx s.ch b) (withRx rest s) = .next t) := by
  by_cases hst : s.stage = .running
  swap
  · have hst : s.stage = .resetting := by cases hs : s.stage <;> simp_all
    rw [step_of_resetting hst] at h
    exact .inl ⟨hst, (Host.Outcome.next.inj h).symm⟩
  · rcases hp : s.pending with _ | ⟨op, ops⟩
    · have hn : s.readsNext := ⟨hst, hp⟩
      rcases hr : s.rx with _ | ⟨b, rest⟩
      · rw [step_of_blocked ⟨hn, hr⟩] at h
        exact .inr (.inr (.inl ⟨⟨hn, hr⟩, by simpa using h.symm⟩))
      · rcases hph : s.phase with _ | _
        · rcases hb : isIndexByte b with _ | _
          · rw [step_of_junk ⟨hn, hph⟩ hr hb] at h
            refine .inr (.inr (.inr (.inr (.inl ⟨⟨hn, hph⟩, b, rest, rfl, hb, ?_⟩))))
            simpa [exec, execJunk] using h.symm
          · rw [step_of_index ⟨hn, hph⟩ hr hb] at h
            exact .inr (.inr (.inr (.inl ⟨⟨hn, hph⟩, b, rest, rfl, hb, by simpa using h.symm⟩)))
        · rw [step_of_value hn hph hr] at h
          exact .inr (.inr (.inr (.inr (.inr ⟨hn, rfl, b, rest, rfl, h⟩))))
    · rw [step_of_pending hst hp] at h
      exact .inr (.inl ⟨hst, op, ops, rfl, (Host.Outcome.next.inj h).symm⟩)

/-! ### Runs of several steps -/

@[simp] theorem runSteps_zero (s : State) : runSteps 0 s = .next s := rfl

theorem runSteps_succ {s t : State} (h : step s = .next t) (k : Nat) :
    runSteps (k + 1) s = runSteps k t := by
  have : core.step s = .next t := h
  simp only [runSteps, Host.Core.run, this]
  rfl

/-- Every step answers a next state. -/
theorem step_next (s : State) : ∃ t, step s = .next t := by
  unfold step
  split
  · exact ⟨_, rfl⟩
  · exact exec_next _ _

/-- A run in two parts. -/
theorem runSteps_add {s t : State} {k : Nat} (h : runSteps k s = .next t) (m : Nat) :
    runSteps (k + m) s = runSteps m t := by
  induction k generalizing s with
  | zero => simp_all
  | succ k ih =>
    obtain ⟨u, hu⟩ := step_next s
    rw [runSteps_succ hu] at h
    rw [Nat.add_right_comm, runSteps_succ hu]
    exact ih h

/-- A quiescent state stays as it is. -/
theorem runSteps_of_quiescent {s : State} (h : s.quiescent) (k : Nat) : runSteps k s = .next s := by
  induction k with
  | zero => rfl
  | succ k ih => rw [runSteps_succ (step_of_blocked h)]; exact ih

end Sys2Proof.Machine
end

