-- ==== Sys2Proof/Laws/MacroView.lean ====
section
/-! SUPPORT. The macro view's operations in terms of the shared ones, and what draining `PENDING` does: the
lemmas that a comparison of the two views of R39 rests on. -/

namespace Sys2Proof.Machine

/-- Performing the first pending operations, one a step (R39). -/
theorem runSteps_drain {s : State} (h : s.stage = .running) {a b : List LineOp} (hp : s.pending = a ++ b) :
    runSteps a.length s = .next (performAll a { s with pending := b }) := by
  induction a generalizing s with
  | nil => simp at hp; simp [← hp]
  | cons op a ih =>
    rw [List.length_cons, runSteps_succ (step_of_pending h hp)]
    refine (ih (s := performOp op { s with pending := a ++ b }) (by simpa using h) (by simp)).trans ?_
    rw [performAll_cons]
    congr 2
    rcases op with l | ⟨l, b⟩ <;> cases l <;> rfl

/-- One latch byte a strip, sent by the macro view. -/
theorem emitLatches_eq (fb : FrameBuffer) (s : State) :
    fb.foldl (fun t _ => emitByte 0x00#8 t) s =
      performAll ((List.replicate fb.length latchByte).flatMap emitOps) s := by
  induction fb generalizing s with
  | nil => rfl
  | cons st fb ih =>
    rw [List.foldl_cons, ih, List.length_cons, List.replicate_succ, List.flatMap_cons, performAll_append]
    rfl

/-- The pixel data of one strip, sent by the macro view. -/
theorem emitStrip_eq (st : Strip) (s : State) :
    emitStrip st s = performAll ((st.toList.flatMap pixelWireBytes).flatMap emitOps) s := by
  unfold emitStrip
  induction st.toList generalizing s with
  | nil => rfl
  | cons col cs ih =>
    rw [List.foldl_cons, ih, List.flatMap_cons, List.flatMap_append, performAll_append]
    simp [pixelWireBytes, pixelDataByte, emitByte_eq]

/-- `send_frame()` performs the operations of its trace. -/
theorem sendFrame_eq (s : State) : sendFrame s = performAll (frameOps s.fb) s := by
  have strips : ∀ (fb : FrameBuffer) (t : State), fb.foldl (fun t st => emitStrip st t) t =
      performAll ((fb.flatMap fun st => st.toList.flatMap pixelWireBytes).flatMap emitOps) t := by
    intro fb
    induction fb with
    | nil => intro t; rfl
    | cons st fb ih =>
      intro t
      rw [List.foldl_cons, ih, List.flatMap_cons, List.flatMap_append, performAll_append, emitStrip_eq]
  rw [sendFrame, strips, emitLatches_eq, frameOps, frameBytes, List.flatMap_append, performAll_append]

/-- `decode_byte` on an index byte in `SEEK_INDEX`. -/
theorem decodeByte_index {s : State} {b : Byte} (h : s.phase = .seekIndex) (hb : isIndexByte b = true) :
    decodeByte s b = latchIndex (pixelField b) (channelField b) s := by
  have hb' : ¬ b.getLsbD 7 = false := by simpa [isIndexByte] using hb
  simp only [decodeByte, h, if_neg hb']
  rfl

/-- `decode_byte` on a junk byte in `SEEK_INDEX`. -/
theorem decodeByte_junk {s : State} {b : Byte} (h : s.phase = .seekIndex) (hb : isIndexByte b = false) :
    decodeByte s b = s := by
  have hb' : b.getLsbD 7 = false := hb
  simp only [decodeByte, h, if_pos hb']

/-- `decode_byte` in `SEEK_VALUE`. -/
theorem decodeByte_value {s : State} (b : Byte) (h : s.phase = .seekValue) :
    decodeByte s b =
      if s.ch = 3#2 then endUnit s
      else if namesCell s.fb (directCell s.idx s.ch) = true ∧ s.idx = 31#5 ∧ s.ch = 2#2 then
        endUnit (performAll (frameOps (fbWrite s.fb (directCell s.idx s.ch) b).1)
          (storeCell (directCell s.idx s.ch) b s))
      else endUnit (storeCell (directCell s.idx s.ch) b s) := by
  have hd : directCell s.idx s.ch = ⟨0, s.idx.toNat, s.ch.toNat⟩ := rfl
  simp only [decodeByte, h, hd]
  by_cases hc : s.ch = 3#2
  · rw [if_neg (by simpa using hc), if_pos hc]; rfl
  · rw [if_pos hc, if_neg hc]
    simp only [fbWrite_happens]
    by_cases ht : namesCell s.fb ⟨0, s.idx.toNat, s.ch.toNat⟩ = true ∧ s.idx = 31#5 ∧ s.ch = 2#2
    · rw [if_pos ht, if_pos ht, sendFrame_eq]
      show endUnit _ = _
      congr 2
      simp [storeCell, h]
    · rw [if_neg ht, if_neg ht]; simp [endUnit, storeCell]

/-- `FramingDesync` is met by a byte exactly when it is a junk byte in `SEEK_INDEX` (R201). -/
theorem byteCondition_framingDesync (s : State) (b : Byte) :
    byteCondition s b = some .framingDesync ↔ s.phase = .seekIndex ∧ isIndexByte b = false := by
  unfold byteCondition
  cases s.phase <;> cases isIndexByte b <;> simp
  all_goals split <;> simp

@[simp] theorem consume_nil (s : State) : consume s [] = s := rfl

@[simp] theorem consume_cons (s : State) (b : Byte) (bs : List Byte) :
    consume s (b :: bs) = consume (decodeByte s b) bs := rfl

theorem consume_append (s : State) (bs cs : List Byte) : consume s (bs ++ cs) = consume (consume s bs) cs :=
  List.foldl_append

@[simp] theorem discarded_nil (s : State) : discarded s [] = 0 := rfl

/-- A junk byte in `SEEK_INDEX` counts one and leaves the state as it is. -/
theorem discarded_junk {s : State} {b : Byte} (bs : List Byte) (h : s.phase = .seekIndex)
    (hb : isIndexByte b = false) : discarded s (b :: bs) = 1 + discarded s bs := by
  rw [discarded, if_pos ((byteCondition_framingDesync s b).2 ⟨h, hb⟩), decodeByte_junk h hb]

/-- Any other byte counts nothing. -/
theorem discarded_other {s : State} {b : Byte} (bs : List Byte)
    (h : ¬ (s.phase = .seekIndex ∧ isIndexByte b = false)) :
    discarded s (b :: bs) = discarded (decodeByte s b) bs := by
  rw [discarded, if_neg fun hc => h ((byteCondition_framingDesync s b).1 hc), Nat.zero_add]

theorem discarded_append (s : State) (bs cs : List Byte) :
    discarded s (bs ++ cs) = discarded s bs + discarded (consume s bs) cs := by
  induction bs generalizing s with
  | nil => simp
  | cons b bs ih => rw [List.cons_append, discarded, discarded, ih, consume_cons, Nat.add_assoc]

end Sys2Proof.Machine
end

