-- ==== Sys2Proof/Laws/PerInstr.lean ====
section
/-! SUPPORT. Facts about every unit as syntax, one lemma per constructor. `UnitLength`: a well-formed unit
is one or two bytes, and bit 7 of its first byte is set exactly when there is a second one (R80). -/

/-- The encoding of a well-formed unit is a first byte and at most one more, which is there exactly when
the first byte has the marker. -/
def Sys2Proof.Laws.UnitLength.Statement (i : Sys2Proof.Instr) : Prop :=
  i.wf = true → ∃ b tail, Sys2Proof.encode i = b :: tail ∧ tail.length ≤ 1 ∧
    (Sys2Proof.isIndexByte b = true ↔ tail.length = 1)

namespace Sys2Proof.Laws.UnitLength

theorem setr (p : BitVec 5) (v : Byte) : Statement (.setr p v) :=
  fun _ => ⟨_, _, rfl, by simp, by simp⟩

theorem setg (p : BitVec 5) (v : Byte) : Statement (.setg p v) :=
  fun _ => ⟨_, _, rfl, by simp, by simp⟩

theorem setb (p : BitVec 5) (v : Byte) : Statement (.setb p v) :=
  fun _ => ⟨_, _, rfl, by simp, by simp⟩

theorem skip (p : BitVec 5) (v : Byte) : Statement (.skip p v) :=
  fun _ => ⟨_, _, rfl, by simp, by simp⟩

theorem junk (b : Byte) : Statement (.junk b) := fun h =>
  ⟨_, _, rfl, by simp, by
    have : isIndexByte b = false := by simpa [Instr.wf, isIndexByte] using h
    simp [this]⟩

end Sys2Proof.Laws.UnitLength
end

