-- ==== Sys2Proof/Tests/Slice0.lean ====
section
/-! SUPPORT. The model's own tests. Expected values are from 95_test_vectors.md (parts A and B) or worked by
hand from the encodings of 30_encoding.md; the witness theorems show that the hypotheses of each statement
can be met together. -/

namespace Sys2Proof.Machine.Tests

/-- A strip with one colour everywhere. -/
def strip (r g b : Byte) : Strip := Vector.replicate 32 ⟨r, g, b⟩

/-- The state after initialisation with the buffer `fb`, but with an empty trace, and the input `rx`. -/
def idle (fb : FrameBuffer) (rx : List Byte) : State where
  phase := .seekIndex
  idx := 0
  ch := 0
  fb := fb
  data := .low
  clock := .low
  dirData := .output
  dirClock := .output
  pending := []
  stage := .running
  rx := rx
  trace := []

/-- One dark strip (`N_STRIPS` = 1 and `FB_RESET` = 0x00: the premises of the vectors). -/
def dark (rx : List Byte) : State := idle [strip 0 0 0] rx

/-- A view of the next state, `none` after any other outcome. -/
def after {α : Type} (o : Host.Outcome State Fault Refusal) (f : State → α) : Option α :=
  match o with
  | .next t => some (f t)
  | .fault _ => none
  | .refused _ => none

/-! ### WellFormed: the one check refuses an ill-formed term (R87) -/

theorem test_wf_refuses_marked_junk : (Instr.junk 0x80#8).wf = false := by decide
theorem test_wf_accepts_junk : (Instr.junk 0x7F#8).wf = true := by decide

/-! ### Decoding: words written out from R84's encodings, and vectors A1, B-EN5 to B-EN13 -/

theorem test_decode_setr : decode [0b10000100#8, 0xAB#8] = .unit (.setr 1#5 0xAB#8) [] := by decide
theorem test_decode_setg : decode [0b11111101#8, 0x01#8] = .unit (.setg 31#5 0x01#8) [] := by decide
theorem test_decode_setb : decode [0b11111110#8, 0x55#8] = .unit (.setb 31#5 0x55#8) [] := by decide
theorem test_decode_skip : decode [0b10000011#8, 0xFF#8] = .unit (.skip 0#5 0xFF#8) [] := by decide
theorem test_decode_junk : decode [0b01111111#8] = .unit (.junk 0x7F#8) [] := by decide
theorem test_decode_no_value : decode [0xFE#8] = .rejected .noValueByte := by decide

/-- No two rows of the opcode table hold of one first byte (R84: "disjoint"): where two rows look at the same
bits, their patterns differ. -/
theorem test_rows_disjoint : opcodeRows.Pairwise (fun (r q : OpcodeRow) =>
    if r.width = q.width then r.pattern &&& q.mask ≠ q.pattern &&& r.mask
    else (r.pattern >>> 8) &&& q.mask ≠ q.pattern) := by decide

/-- The table's numbering: the index byte is bits 15:8 (R11). -/
theorem test_table_word_setr : decodeTableWord 16 0x9012 = some (.setr 4#5 0x12#8) := by decide
theorem test_table_word_junk : decodeTableWord 8 0x05 = some (.junk 0x05#8) := by decide

/-- Each row's match word runs as the first unit after reset. -/
theorem test_first_unit_after_reset :
    (after (step (State.reset.withFetchWord 16 0x8000)) fun t => (t.phase, t.idx, t.ch, t.rx))
      = some (.seekIndex, 0#5, 0#2, []) ∧
    (after (step (State.reset.withFetchWord 16 0x8100)) fun t => (t.phase, t.idx, t.ch, t.rx))
      = some (.seekIndex, 0#5, 1#2, []) ∧
    (after (step (State.reset.withFetchWord 16 0x8200)) fun t => (t.phase, t.idx, t.ch, t.rx))
      = some (.seekIndex, 0#5, 2#2, []) ∧
    (after (step (State.reset.withFetchWord 16 0x8300)) fun t => (t.phase, t.idx, t.ch, t.rx))
      = some (.seekIndex, 0#5, 3#2, []) ∧
    (after (step (State.reset.withFetchWord 8 0x00)) fun t => (t.phase, t.rx))
      = some (.seekIndex, [0#8]) := by
  refine ⟨rfl, rfl, rfl, rfl, rfl⟩

/-- From reset, the first unit's cell is written and a `FLUSH` commits a frame, whatever the buffer held. -/
theorem test_first_store_and_flush_after_reset :
    (after (step (State.reset.withFetchWord 16 0x807F)) fun t => fbRead t.fb ⟨0, 0, 0⟩) = some (some 0x7F) ∧
    (after (step (State.reset.withFetchWord 16 0xFE55)) fun t => t.pending.isEmpty) = some false := by
  decide

/-! ### The units (B-CD vectors) -/

/-- B-CD1. -/
theorem test_setr_stores : (after (exec (.setr 0 0x7F) (dark [])) fun t =>
    (fbRead t.fb ⟨0, 0, 0⟩, fbRead t.fb ⟨0, 0, 1⟩, t.idx, t.ch))
    = some (some 0x7F, some 0x00, 0, 0) := by decide

/-- B-CD3: red of pixel 31 does not start a send. -/
theorem test_setr_31_no_send : (after (exec (.setr 31 0x01) (dark [])) fun t =>
    (fbRead t.fb ⟨0, 31, 0⟩, t.pending)) = some (some 0x01, []) := by decide

/-- B-CD17: bit 7 of a value is stored. -/
theorem test_setg_keeps_bit7 : (after (exec (.setg 0 0xB0) (dark [])) fun t =>
    (fbRead t.fb ⟨0, 0, 1⟩, t.ch)) = some (some 0xB0, 1) := by decide

/-- B-CD2. -/
theorem test_setg_31_no_send : (after (exec (.setg 31 0x01) (dark [])) fun t =>
    (fbRead t.fb ⟨0, 31, 1⟩, t.pending)) = some (some 0x01, []) := by decide

/-- B-CD4: pixel 30, not 31. -/
theorem test_setb_30_no_send : (after (exec (.setb 30 0x01) (dark [])) fun t =>
    (fbRead t.fb ⟨0, 30, 2⟩, t.pending)) = some (some 0x01, []) := by decide

/-- A4, P2: the frame begins with the green byte of pixel 0 and carries the value just written. -/
theorem test_setb_31_sends : (after (exec (.setb 31 0x55) (dark [])) fun t =>
    (t.pending.take 6, frameBytes t.fb))
    = some ([.set .data true, .set .clock true, .set .clock false,
             .set .data false, .set .clock true, .set .clock false],
            List.replicate 94 0x80 ++ [0xD5, 0x80, 0x00]) := by decide

/-- B-CD7. -/
theorem test_skip_31_no_send : (after (exec (.skip 31 0x55) (dark [])) fun t =>
    (decide (t.fb = [strip 0 0 0]), t.pending, t.idx, t.ch)) = some (true, [], 31, 3) := by decide

/-- A5: one junk byte is discarded. -/
theorem test_junk_discarded : (after (step (dark [0x05, 0x80, 0x7F])) fun t => decide (t = dark [0x80, 0x7F]))
    = some true := by decide

/-- B-CD8: an index byte alone is latched. -/
theorem test_index_latched : (after (step (dark [0xFE])) fun t => (t.phase, t.idx, t.ch, t.rx))
    = some (.seekValue, 31, 2, []) := by decide

/-- B-CD10: with the value byte lost, the next index byte is stored as the value. -/
theorem test_index_byte_stored_as_value :
    fbRead (consume (dark []) [0x80, 0x81, 0x30, 0x82, 0x10]).fb ⟨0, 0, 0⟩ = some 0x81 ∧
    fbRead (consume (dark []) [0x80, 0x81, 0x30, 0x82, 0x10]).fb ⟨0, 0, 1⟩ = some 0x00 ∧
    fbRead (consume (dark []) [0x80, 0x81, 0x30, 0x82, 0x10]).fb ⟨0, 0, 2⟩ = some 0x10 := by decide

/-! ### The wire (B-SD, B-FE, B-RS vectors) -/

/-- B-SD4: 0xA5. -/
theorem test_emit_A5 : emitOps 0xA5 =
    [true, false, true, false, false, true, false, true].flatMap fun b =>
      [.set .data b, .set .clock true, .set .clock false] := by decide

/-- B-FE5: green, blue, red. -/
theorem test_wire_order : frameBytes [(strip 0 0 0).set 0 ⟨0x01, 0x02, 0x03⟩] =
    [0x82, 0x83, 0x81] ++ List.replicate 93 0x80 ++ [0x00] := by decide

/-- B-FE6: strip 0, then strip 1, then two latch bytes. -/
theorem test_two_strips :
    ((frameBytes [strip 0 0 0, strip 0x11 0x11 0x11]).drop 94).take 4 = [0x80, 0x80, 0x91, 0x91] ∧
    (frameBytes [strip 0 0 0, strip 0x11 0x11 0x11]).drop 190 = [0x91, 0x91, 0x00, 0x00] := by decide

/-- B-RS1. -/
theorem test_init_trace : initOps 1 = [.cfgOut .data, .cfgOut .clock] ++
    (List.replicate 8 [.set .data false, .set .clock true, .set .clock false]).flatten := by decide

/-- B-FB3 to B-FB5: writes that name no cell are dropped. -/
theorem test_dropped_writes : fbWrite [strip 0 0 0] ⟨0, 5, 3⟩ 0x12 = ([strip 0 0 0], false) ∧
    fbWrite [strip 0 0 0] ⟨0, 32, 0⟩ 0x12 = ([strip 0 0 0], false) ∧
    fbWrite [strip 0 0 0] ⟨1, 0, 0⟩ 0x12 = ([strip 0 0 0], false) := ⟨rfl, rfl, rfl⟩

/-- R40 by hand: after 24 x 94 + 3 operations of a one-strip send the next is bit 6 of the blue byte of
pixel 31; after 2327 it is the last strobe of the latch byte. -/
theorem test_counters : sendPos 1 (24 * 94 + 3) = .pixelData 0 31 1 6 0 ∧ sendPos 1 2327 = .latch 0 0 2 := by
  decide

/-- R40 by hand, for the initialisation: no counter at the second `CfgOut`; after 2 + 24 + 4 operations of
a two-strip initialisation the clock rises for bit 6 of the second latch byte, and `PENDING` says so. -/
theorem test_init_counters : initPos 1 = none ∧ initPos 30 = some (.latch 1 6 1) ∧
    counters { idle [strip 0 0 0, strip 1 1 1] [] with pending := (initOps 2).drop 30 } =
      some (.latch 1 6 1) := by decide

/-- R116 by hand: under the rising-edge reading the strip takes the bits of the byte, first one bit 7. -/
theorem test_sampled_bits : sampledBits .low .low (emitOps 0xA5) =
    [.high, .low, .high, .low, .low, .high, .low, .high] := by decide

/-! ### Witnesses: the hypotheses of each statement can be met -/

theorem witness_ResetLeavesSpecifiedValues :
    ∃ a : CellAddr, a.strip < Config.nStrips ∧ a.pixel < 32 ∧ a.channel < 3 ∧ a.pixel = 31 ∧ a.channel = 2 :=
  ⟨⟨0, 31, 2⟩, Config.nStrips_pos, by decide⟩

theorem witness_InitialisationTraceAndEndState :
    State.reset.stage = .resetting ∧ State.reset.pending = [] ∧ 0 < State.reset.fb.length :=
  ⟨rfl, rfl, by simp [State.reset, Config.nStrips_pos]⟩

theorem witness_IndexByteFieldExtraction : isIndexByte 0xFE#8 = true := by decide

theorem witness_DecodeOfEncode : (Instr.junk 0x7F#8).wf = true ∧ (Instr.setb 31 0xFF).wf = true := by decide

theorem witness_EncodeOfDecode : decode [0xFF#8, 0x00#8, 0x05#8] = .unit (.skip 31 0x00) [0x05#8] := by
  decide

theorem witness_MarkerBitTellsUnitLength : (0x80#8).getLsbD 7 = true ∧ (0x7F#8).getLsbD 7 = false := by
  decide

/-- A boundary state, used wherever a statement starts at one. -/
theorem witness_atBoundary (fb : FrameBuffer) (rx : List Byte) : (idle fb rx).atBoundary :=
  ⟨⟨rfl, rfl⟩, rfl⟩

theorem witness_StepsRunDecodedUnit : (dark [0x80, 0x7F, 0x05]).atBoundary ∧
    decode (dark [0x80, 0x7F, 0x05]).rx = .unit (.setr 0 0x7F) [0x05] ∧ (Instr.setr 0 0x7F).wf = true :=
  ⟨witness_atBoundary _ _, by decide, by decide⟩

theorem witness_OneStepHandlesOneByte :
    ((dark [0x80]).readsNext ∧ (dark [0x80]).phase = .seekIndex ∧ (0x80#8).getLsbD 7 = true) ∧
    ((dark [0x7F]).readsNext ∧ (dark [0x7F]).phase = .seekIndex ∧ (0x7F#8).getLsbD 7 = false) ∧
    (latchIndex 31 2 (dark [0xFF])).readsNext ∧ (latchIndex 31 2 (dark [0xFF])).phase = .seekValue :=
  ⟨⟨⟨rfl, rfl⟩, rfl, rfl⟩, ⟨⟨rfl, rfl⟩, rfl, rfl⟩, ⟨rfl, rfl⟩, rfl⟩

theorem witness_PlacedTableWordRuns : decodeTableWord 16 0xFE55 = some (.setb 31 0x55) := by decide

theorem witness_SetrStoresRedCell : 0 < (dark []).fb.length ∧
    (dark (encode (.setr 31 0xFF) ++ [0x05])).atBoundary := ⟨by decide, witness_atBoundary _ _⟩

theorem witness_SetgStoresGreenCell : 0 < (dark []).fb.length ∧
    (dark (encode (.setg 0 0x80) ++ [])).atBoundary := ⟨by decide, witness_atBoundary _ _⟩

theorem witness_SetbStoresBlueCellAndSends : 0 < (dark []).fb.length ∧
    (dark (encode (.setb 30 0) ++ [])).atBoundary ∧ (dark (encode (.setb 31 0) ++ [])).atBoundary ∧
    (dark []).readsNext ∧ (∃ t, exec (.setb 30 0) (dark []) = .next t) ∧
    ∃ t, exec (.setb 31 0) (dark []) = .next t :=
  ⟨by decide, witness_atBoundary _ _, witness_atBoundary _ _, ⟨rfl, rfl⟩, ⟨_, rfl⟩, ⟨_, rfl⟩⟩

theorem witness_SkipConsumesBothBytesOnly : (dark (encode (.skip 31 0x80) ++ [])).atBoundary :=
  witness_atBoundary _ _

theorem witness_JunkChangesNothing : (dark ([0x00, 0x7F] ++ [0x80])).atBoundary ∧
    (∀ b ∈ [0x00#8, 0x7F#8], b.getLsbD 7 = false) ∧
    (latchIndex 0 1 (dark [0x00])).readsNext ∧ (latchIndex 0 1 (dark [0x00])).phase = .seekValue :=
  ⟨witness_atBoundary _ _, by decide, ⟨rfl, rfl⟩, rfl⟩

theorem witness_SendStartsOnlyOnPixel31Blue :
    (startSend (dark [])).stage = .running ∧ (startSend (dark [])).pending ≠ [] :=
  ⟨rfl, by decide⟩

theorem witness_OutOfRangeWriteUnreachableAndDropped : 0 < (dark []).fb.length ∧ (idle [] []).fb = [] := by
  decide

theorem witness_OutOfRangeWriteCauseAndDrop :
    conditionMet (latchIndex 31 2 (idle [] [0x55])) = some .outOfRangeWrite := by decide

theorem witness_FramingDesyncDiscardsOneByte : conditionMet (dark [0x05]) = some .framingDesync := by decide

theorem witness_ReservedChannelDropsValueByte :
    conditionMet (latchIndex 31 3 (dark [0x55])) = some .reservedChannel := by decide

/-- Quiescent in either phase. -/
theorem witness_StallLeavesStateUnchanged : (dark []).quiescent ∧ (latchIndex 31 2 (dark [])).quiescent :=
  ⟨⟨⟨rfl, rfl⟩, rfl⟩, ⟨⟨rfl, rfl⟩, rfl⟩⟩

theorem witness_DeliveryCommutesWithStep :
    ¬ (dark [0x05]).quiescent ∧ step (dark [0x05]) = .next (dark []) :=
  ⟨fun h => absurd h.2 (by decide), rfl⟩

theorem witness_GuardedWriteStoresOneCell :
    (0 < [strip 0 0 0].length ∧ (31 : Nat) ≤ 31 ∧ (2 : Nat) ≤ 2) ∧
    ¬ (0 < [strip 0 0 0].length ∧ (32 : Nat) ≤ 31 ∧ (0 : Nat) ≤ 2) ∧
    ¬ (1 < [strip 0 0 0].length ∧ (0 : Nat) ≤ 31 ∧ (0 : Nat) ≤ 2) ∧
    ¬ (0 < [strip 0 0 0].length ∧ (0 : Nat) ≤ 31 ∧ (3 : Nat) ≤ 2) := by decide

theorem witness_BulkReadIsNinetySixReads : 1 < [strip 0 0 0, strip 1 1 1].length := by decide

theorem witness_OnlyStripZeroIsWritten : ∃ t, step (latchIndex 0 0 (idle [strip 0 0 0, strip 1 1 1] [5])) =
    .next t ∧ fbRead t.fb ⟨1, 31, 2⟩ = some 1 ∧ fbRead t.fb ⟨0, 0, 0⟩ = some 5 :=
  ⟨_, rfl, by decide, by decide⟩

theorem witness_EmittedByteClosedForm : emitOps 0xA5 = emitOps 0xA5 ∧ (7 : Nat) ≤ 7 := by decide

theorem witness_FrameLayout : 1 < [strip 0 0 0, strip 1 1 1].length ∧ (31 : Nat) < 32 := by decide

/-- Two different buffers whose cells agree in bits 6 to 0. -/
theorem witness_FrameIgnoresCellBitSeven : [strip 0x30 0 1] ≠ [strip 0xB0 0x80 0x81] ∧
    ∀ a : CellAddr, (fbRead [strip 0x30 0 1] a).map (· &&& 0x7F#8) =
      (fbRead [strip 0xB0 0x80 0x81] a).map (· &&& 0x7F#8) := by
  refine ⟨fun h => absurd (congrArg (fun fb => fbRead fb ⟨0, 0, 0⟩) h) (by decide), ?_⟩
  rintro ⟨s, p, c⟩
  rcases s with _ | s
  · by_cases hp : p < 32
    · rcases c with _ | _ | _ | c <;> simp [fbRead, strip, hp, Color.cell?]
    · simp [fbRead, strip, hp]
  · simp [fbRead]

theorem witness_CountersSelectTheNextOperation : 2327 < 2328 * [strip 0 0 0].length := by decide

/-- Boundary values of each clause, for one strip. -/
theorem witness_CountersFollowOperationsPerformed : 2327 < 2328 * [strip 0 0 0].length ∧ (1 : Nat) < 2 ∧
    (2 : Nat) ≤ 2 ∧ 2 < 2 + 24 * [strip 0 0 0].length ∧ 25 < 2 + 24 * [strip 0 0 0].length := by decide

theorem witness_PendingOperationGoesFirst : (commit [.set .data true] (dark [0x80])).stage = .running ∧
    (commit [.set .data true] (dark [0x80])).pending = [.set .data true] := ⟨rfl, rfl⟩

theorem witness_SendRunsToItsLastLatchByte : (latchIndex 31 2 (dark [0x55, 0x80])).readsNext ∧
    (latchIndex 31 2 (dark [0x55, 0x80])).phase = .seekValue ∧
    (latchIndex 31 2 (dark [0x55, 0x80])).idx = 31#5 ∧ (latchIndex 31 2 (dark [0x55, 0x80])).ch = 2#2 ∧
    (latchIndex 31 2 (dark [0x55, 0x80])).rx = [0x55, 0x80] ∧
    0 < (latchIndex 31 2 (dark [0x55, 0x80])).fb.length :=
  ⟨⟨rfl, rfl⟩, rfl, rfl, rfl, rfl, by decide⟩

theorem witness_ResendingReproducesTheFrame : (dark []).phase = .seekIndex ∧ 0 < (dark []).fb.length := by
  decide

theorem witness_StepsRefineDecodeByteFold : (dark [0xFE, 0x55, 0x05]).readsNext := ⟨rfl, rfl⟩

theorem witness_TraceOnlyGrows : ∃ t, step (commit [.set .clock true] (dark [])) = .next t ∧
    t.trace = [.set .clock true] := ⟨_, rfl, rfl⟩

/-- Conforming streams, for the statements about disturbed ones. -/
theorem witness_conforming : conformingBytes ([(0x80#8, 0x7F#8)] ++ (0x81#8, 0x30#8) :: (0x82#8, 0x10#8) :: []) ∧
    (dark []).phase = .seekIndex := by
  refine ⟨?_, rfl⟩
  intro c hc
  simp only [List.mem_append, List.mem_cons, List.not_mem_nil, or_false] at hc
  rcases hc with rfl | rfl | rfl <;> exact ⟨by decide, rfl⟩

/-- B-CD13's stream: every byte has bit 7 = 1. -/
theorem witness_MarkedValueBytesDefeatResynchronisation : (dark []).phase = .seekIndex ∧
    isIndexByte 0xC8#8 = true ∧ ∀ c ∈ [(0x82#8, 0x90#8), (0x84#8, 0x81#8), (0x88#8, 0xFF#8)],
      isIndexByte c.1 = true ∧ isIndexByte c.2 = true := by
  refine ⟨rfl, by decide, ?_⟩
  intro c hc
  simp only [List.mem_cons, List.not_mem_nil, or_false] at hc
  rcases hc with rfl | rfl | rfl <;> decide

theorem witness_OneLowByteRealignsAfterAPause : (dark []).quiescent ∧ (latchIndex 0 1 (dark [])).quiescent ∧
    (latchIndex 0 1 (dark [])).phase = .seekValue ∧ (latchIndex 0 1 (dark [])).ch ≠ 3#2 ∧
    (0x00#8).getLsbD 7 = false ∧ 0 < (dark []).fb.length :=
  ⟨⟨⟨rfl, rfl⟩, rfl⟩, ⟨⟨rfl, rfl⟩, rfl⟩, rfl, by decide, rfl, by decide⟩

theorem witness_DecodingIgnoresTheBuffer : dark [] ≠ idle [strip 1 2 3] [] ∧
    (dark []).phase = (idle [strip 1 2 3] []).phase ∧ (dark []).idx = (idle [strip 1 2 3] []).idx ∧
    (dark []).ch = (idle [strip 1 2 3] []).ch :=
  ⟨fun h => absurd (congrArg (fun s => fbRead s.fb ⟨0, 0, 0⟩) h) (by decide), rfl, rfl, rfl⟩

theorem witness_LatchedFieldsAreNotReadInSeekIndex : (dark []).phase = .seekIndex ∧
    ∃ b ∈ [0x05#8, 0x80#8], isIndexByte b = true := by decide

/-- The reset state meets each invariant and takes a step. -/
theorem witness_invariants_kept : LinesFollowTrace State.reset ∧ TraceIsWholeFrames State.reset ∧
    BufferShape State.reset ∧ ∃ t, step State.reset = .next t := by
  refine ⟨⟨rfl, rfl, rfl, rfl⟩, ⟨rfl, rfl⟩, ⟨FrameBuffer.reset_length, fun a _ hn => ?_⟩, _, rfl⟩
  rw [namesCell_iff] at hn
  exact fbRead_reset a (by simpa [State.reset] using hn.1) hn.2.1 hn.2.2

/-- The state after initialisation, with `N_STRIPS` and `FB_RESET` as they are. -/
def initialised : State := { State.reset with
  stage := .running
  trace := initOps Config.nStrips
  data := .low
  clock := .low
  dirData := .output
  dirClock := .output }

theorem initOps_ends_in_latch : ∃ ops, initOps Config.nStrips = ops ++ emitOps 0x00#8 ∧
    LineOp.cfgOut .data ∈ initOps Config.nStrips ∧ LineOp.cfgOut .clock ∈ initOps Config.nStrips := by
  refine ⟨[.cfgOut .data, .cfgOut .clock] ++ (List.replicate Config.extraStrips latchByte).flatMap emitOps,
    ?_, by simp [initOps], by simp [initOps]⟩
  rw [initOps, Config.nStrips, List.replicate_succ', List.flatMap_append, List.append_assoc]
  rfl

/-- Between units the three invariants hold together in a state about to read. -/
theorem witness_LinesAreLowBetweenBytes : LinesFollowTrace initialised ∧ TraceIsWholeFrames initialised ∧
    BufferShape initialised ∧ initialised.readsNext := by
  obtain ⟨ops, h, h1, h2⟩ := initOps_ends_in_latch
  refine ⟨⟨?_, ?_, ?_, ?_⟩, ⟨[], by simp, .inl ⟨rfl, by simp [initialised]⟩⟩,
    witness_invariants_kept.2.2.1, rfl, rfl⟩
  · show Level.low = lastLevel .data (initOps Config.nStrips)
    rw [h, lastLevel, List.foldl_append]; rfl
  · show Level.low = lastLevel .clock (initOps Config.nStrips)
    rw [h, lastLevel, List.foldl_append]; rfl
  · show Direction.output = configuredIn .data (initOps Config.nStrips)
    rw [configuredIn, if_pos h1]
  · show Direction.output = configuredIn .clock (initOps Config.nStrips)
    rw [configuredIn, if_pos h2]

/-- The first step after reset leaves a state that meets the invariants with the whole initialisation
pending; and there are states with what is left of either sequence pending, and with nothing. -/
theorem witness_PendingHoldsTheCounters :
    (BufferShape (beginInit State.reset) ∧ TraceIsWholeFrames (beginInit State.reset) ∧
      ∃ ops, (beginInit State.reset).pending = .cfgOut .data :: ops) ∧
    (0 < 2328 * (dark []).fb.length ∧ (startSend (dark [])).pending = (frameOps (dark []).fb).drop 0) ∧
    (1 < 2 + 24 * (dark []).fb.length ∧
      (commit ((initOps 1).drop 1) (dark [])).pending = (initOps (dark []).fb.length).drop 1) ∧
    (dark []).pending = [] := by
  refine ⟨⟨?_, ⟨[], by simp, .inr (.inl ⟨?_, rfl, ?_⟩)⟩, _, rfl⟩, ⟨by decide, rfl⟩, ⟨by decide, rfl⟩, rfl⟩
  · exact witness_invariants_kept.2.2.1
  · exact List.cons_ne_nil _ _
  · show [] ++ ([] ++ initOps FrameBuffer.reset.length) = _
    rw [FrameBuffer.reset_length]; rfl

end Sys2Proof.Machine.Tests
end

section
/-! SUPPORT. What decoding a unit says about its bytes, how a placed unit runs, and what the meanings and a
step do to the trace, with the scope statements (00_scope.md) they settle. -/

namespace Sys2Proof

/-- What the bytes of a decoded unit are: a junk byte, or an index byte and a value byte (R84). -/
theorem decode_unit_cases {bytes rest : List Byte} {i : Instr} (h : decode bytes = .unit i rest) :
    (∃ b, bytes = b :: rest ∧ isIndexByte b = false ∧ i = .junk b) ∨
    (∃ b v, bytes = b :: v :: rest ∧ isIndexByte b = true ∧
      i = commandOf (pixelField b) (channelField b) v) := by
  rcases bytes with _ | ⟨b, tail⟩
  · cases h
  rcases hb : isIndexByte b with _ | _
  · rw [decode_of_not_index b tail hb] at h
    cases h
    exact .inl ⟨b, rfl, hb, rfl⟩
  · rcases tail with _ | ⟨v, tail⟩
    · simp [decode, hb] at h
    · rw [decode_of_index b v tail hb] at h
      cases h
      exact .inr ⟨b, v, rfl, hb, rfl⟩

/-- A table word's unit is the one its bytes decode to (R11). -/
theorem decodeTableWord_eq_some_iff {nbits w : Nat} {i : Instr} :
    decodeTableWord nbits w = some i ↔ ∃ rest, decode (tableBytes nbits w) = .unit i rest := by
  unfold decodeTableWord
  cases decode (tableBytes nbits w) <;> simp

end Sys2Proof

namespace Sys2Proof.Machine

/-! ### A placed unit runs in the next step -/

/-- A placed command has its index byte latched, so the next step reads its value byte (R62, R170). -/
theorem step_placeUnit_command {b : Byte} (hb : isIndexByte b = true) (v : Byte) (rest : List Byte)
    (s : State) :
    step (placeUnit (b :: v :: rest) s) =
      exec (commandOf (pixelField b) (channelField b) v)
        (latchIndex (pixelField b) (channelField b)
          { s with stage := .running, pending := [], rx := rest ++ s.rx }) := by
  rw [placeUnit, if_pos hb]
  exact step_of_value ⟨rfl, rfl⟩ rfl rfl

/-- A placed junk byte is read by the next step in `SEEK_INDEX` (R170, R176). -/
theorem step_placeUnit_junk {b : Byte} (hb : isIndexByte b = false) (rest : List Byte) (s : State) :
    step (placeUnit (b :: rest) s) =
      exec (.junk b) (endUnit { s with stage := .running, pending := [], rx := rest ++ s.rx }) := by
  rw [placeUnit, if_neg (by simp [hb])]
  exact step_of_junk ⟨⟨rfl, rfl⟩, rfl⟩ rfl hb

/-- Settles O13: the word's bytes are a command or a junk byte, and either is run where it was placed. -/
theorem placedTableWordRuns : Obligations.PlacedTableWordRuns := by
  intro s nbits w i h
  obtain ⟨rest, hd⟩ := decodeTableWord_eq_some_iff.1 h
  obtain ⟨b, hbytes, hb, rfl⟩ | ⟨b, v, hbytes, hb, rfl⟩ := decode_unit_cases hd
  · rw [State.withFetchWord, hbytes]
    exact ⟨_, step_placeUnit_junk hb rest s, rfl, rfl, rfl, rfl, rfl, rfl, rfl, rfl⟩
  · rw [State.withFetchWord, hbytes]
    exact ⟨_, step_placeUnit_command hb v rest s, rfl, rfl, rfl, rfl, rfl, rfl, rfl, rfl⟩

/-! ### The trace -/

/-- No unit's meaning performs a line operation: what it sends goes into `PENDING` (R39). -/
theorem exec_trace {i : Instr} {s t : State} (h : exec i s = .next t) : t.trace = s.trace := by
  cases i <;> cases h <;> rfl

/-- Settles O43: of the six things a step can do, performing the first pending operation alone reaches the
trace. -/
theorem traceOnlyGrows : Obligations.TraceOnlyGrows := by
  intro s t h
  obtain ⟨-, rfl⟩ | ⟨-, op, ops, -, rfl⟩ | ⟨-, rfl⟩ | ⟨-, b, rest, -, -, rfl⟩ |
    ⟨-, b, rest, -, -, rfl⟩ | ⟨-, -, b, rest, -, hv⟩ := step_cases h
  · exact .inl (beginInit_trace s)
  · exact .inr ⟨op, performOp_trace op _⟩
  · exact .inl rfl
  · exact .inl (latchIndex_trace _ _ _)
  · exact .inl (withRx_trace rest s)
  · exact .inl ((exec_trace hv).trans (withRx_trace rest s))

end Sys2Proof.Machine
end

section
/-! SUPPORT. What a step does to the buffer and to the lines, said once each, with the statements of
10_state.md sections 1 to 5 and 7 that follow: reset, the buffer's shape, the line registers, the input and
the latched fields. -/

namespace Sys2Proof.Machine

/-! ### Reset -/

/-- Settles O1: the buffer reads `FB_RESET` by the law of the reset buffer; every other register is written
out in R43's table. -/
theorem resetLeavesSpecifiedValues : Obligations.ResetLeavesSpecifiedValues :=
  ⟨rfl, FrameBuffer.reset_length, Config.nStrips_pos, fbRead_reset, rfl, rfl, rfl, rfl, rfl, rfl⟩

/-- A state that holds the reset buffer has the buffer's shape (R27). -/
theorem bufferShape_of_fb_eq_reset {s : State} (h : s.fb = FrameBuffer.reset) : BufferShape s := by
  refine ⟨by rw [h, FrameBuffer.reset_length], fun a _ ha => ?_⟩
  rw [h] at ha ⊢
  obtain ⟨hs, hp, hc⟩ := (namesCell_iff _ a).1 ha
  exact fbRead_reset a (FrameBuffer.reset_length ▸ hs) hp hc

/-- Settles O56: at reset the trace is empty and both lines stand as an empty trace says. -/
theorem invariantsHoldAtReset : Obligations.InvariantsHoldAtReset := fun _ =>
  ⟨⟨rfl, rfl, rfl, rfl⟩, bufferShape_of_fb_eq_reset rfl, rfl, rfl⟩

/-! ### The buffer: a step writes at most one cell, of strip 0 -/

/-- A unit leaves the buffer as it is or writes one directly addressed cell (R171 to R178). -/
theorem exec_fb {i : Instr} {s t : State} (h : exec i s = .next t) :
    t.fb = s.fb ∨ ∃ p c v, t.fb = (fbWrite s.fb (directCell p c) v).1 := by
  cases i with
  | setr p v => cases h; exact .inr ⟨p, redSelector, v, rfl⟩
  | setg p v => cases h; exact .inr ⟨p, greenSelector, v, rfl⟩
  | setb p v => cases h; exact .inr ⟨p, blueSelector, v, rfl⟩
  | skip p v => cases h; exact .inl rfl
  | junk b => cases h; exact .inl rfl

/-- A step leaves the buffer as it is or writes one directly addressed cell (R28). -/
theorem step_fb {s t : State} (h : step s = .next t) :
    t.fb = s.fb ∨ ∃ p c v, t.fb = (fbWrite s.fb (directCell p c) v).1 := by
  obtain ⟨-, rfl⟩ | ⟨-, op, ops, -, rfl⟩ | ⟨-, rfl⟩ | ⟨-, b, rest, -, -, rfl⟩ |
    ⟨-, b, rest, -, -, rfl⟩ | ⟨-, -, b, rest, -, hv⟩ := step_cases h
  · exact .inl (beginInit_fb s)
  · exact .inl (performOp_fb op _)
  · exact .inl rfl
  · exact .inl (latchIndex_fb _ _ _)
  · exact .inl (withRx_fb rest s)
  · exact exec_fb (s := withRx rest s) hv

/-- A directly addressed write leaves the reading of every cell of strips 1 and up (R178). -/
theorem fbRead_fbWrite_directCell (fb : FrameBuffer) (p : BitVec 5) (c : BitVec 2) (v : Byte)
    {a : CellAddr} (ha : 1 ≤ a.strip) :
    fbRead (fbWrite fb (directCell p c) v).1 a = fbRead fb a := by
  have hne : a ≠ directCell p c := by
    rintro rfl
    exact absurd ha (by simp [directCell])
  rw [fbRead_fbWrite, if_neg fun h => hne h.1]

/-- Settles O30: the one write a step may do is directly addressed, so it is of strip 0. -/
theorem onlyStripZeroIsWritten : Obligations.OnlyStripZeroIsWritten := by
  intro s t h
  obtain hfb | ⟨p, c, v, hfb⟩ := step_fb h
  · exact ⟨congrArg List.length hfb, fun a _ => by rw [hfb]⟩
  · rw [hfb]
    exact ⟨fbWrite_length _ _ _, fun a ha => fbRead_fbWrite_directCell _ p c v ha⟩

/-- Settles O54: with the number of strips the cells that exist stay the same, and no step changes what
those of strips 1 and up read as. -/
theorem bufferShapeIsKept : Obligations.BufferShapeIsKept := by
  rintro s t ⟨hlen, hcells⟩ h
  obtain ⟨hlen', hread⟩ := onlyStripZeroIsWritten s t h
  refine ⟨hlen'.trans hlen, fun a ha hn => ?_⟩
  rw [namesCell_iff, hlen', ← namesCell_iff] at hn
  rw [hread a ha, hcells a ha hn]

/-! ### The lines: only performing an operation reaches them -/

/-- `t` has the line registers, the direction latches and the trace of `s`. -/
structure SameLines (s t : State) : Prop where
  data : t.data = s.data
  clock : t.clock = s.clock
  dirData : t.dirData = s.dirData
  dirClock : t.dirClock = s.dirClock
  trace : t.trace = s.trace

/-- States with the same lines and trace agree on whether the lines follow the trace. -/
theorem SameLines.linesFollowTrace {s t : State} (h : SameLines s t) (hs : LinesFollowTrace s) :
    LinesFollowTrace t := by
  rw [LinesFollowTrace, h.data, h.clock, h.dirData, h.dirClock, h.trace]
  exact hs

/-- No unit's meaning reaches the lines: what it sends goes into `PENDING` (R39). -/
theorem exec_sameLines {i : Instr} {s t : State} (h : exec i s = .next t) : SameLines s t := by
  cases i <;> cases h <;> exact ⟨rfl, rfl, rfl, rfl, rfl⟩

/-- A step performs the first pending operation, or leaves lines and trace as they are. -/
theorem step_lines {s t : State} (h : step s = .next t) :
    SameLines s t ∨ ∃ op ops, t = performOp op { s with pending := ops } := by
  obtain ⟨-, rfl⟩ | ⟨-, op, ops, -, rfl⟩ | ⟨-, rfl⟩ | ⟨-, b, rest, -, -, rfl⟩ |
    ⟨-, b, rest, -, -, rfl⟩ | ⟨-, -, b, rest, -, hv⟩ := step_cases h
  · exact .inl ⟨rfl, rfl, rfl, rfl, rfl⟩
  · exact .inr ⟨op, ops, rfl⟩
  · exact .inl ⟨rfl, rfl, rfl, rfl, rfl⟩
  · exact .inl ⟨rfl, rfl, rfl, rfl, rfl⟩
  · exact .inl ⟨rfl, rfl, rfl, rfl, rfl⟩
  · obtain ⟨hd, hc, hdd, hdc, ht⟩ := exec_sameLines hv
    exact .inl ⟨hd, hc, hdd, hdc, ht⟩

/-- A `Set` at the end of a trace gives its line's level and no other's (R34). -/
@[simp] theorem lastLevel_append_set (l l' : Line) (b : Bool) (ops : List LineOp) :
    lastLevel l (ops ++ [.set l' b]) = if l' = l then Level.ofBit b else lastLevel l ops := by
  simp [lastLevel]

/-- A `CfgOut` at the end of a trace gives no level (R33). -/
@[simp] theorem lastLevel_append_cfgOut (l l' : Line) (ops : List LineOp) :
    lastLevel l (ops ++ [.cfgOut l']) = lastLevel l ops := by
  simp [lastLevel]

/-- A `CfgOut` at the end of a trace configures its line and no other (R33). -/
@[simp] theorem configuredIn_append_cfgOut (l l' : Line) (ops : List LineOp) :
    configuredIn l (ops ++ [.cfgOut l']) = if l' = l then .output else configuredIn l ops := by
  by_cases h : l' = l
  · simp [configuredIn, h]
  · simp [configuredIn, h, Ne.symm h]

/-- A `Set` at the end of a trace configures nothing (R34). -/
@[simp] theorem configuredIn_append_set (l l' : Line) (b : Bool) (ops : List LineOp) :
    configuredIn l (ops ++ [.set l' b]) = configuredIn l ops := by
  simp [configuredIn]

/-- Performing a line operation keeps the lines as the trace says (R33, R34). -/
theorem linesFollowTrace_performOp {s : State} (op : LineOp) (h : LinesFollowTrace s) :
    LinesFollowTrace (performOp op s) := by
  obtain ⟨hd, hc, hdd, hdc⟩ := h
  cases op with
  | cfgOut l => simp [LinesFollowTrace, performOp, hd, hc, hdd, hdc]
  | set l b => simp [LinesFollowTrace, performOp, hd, hc, hdd, hdc]

/-- Settles O53: a step performs one operation, which keeps the lines as the trace says, or reaches neither
lines nor trace. -/
theorem linesFollowTraceIsKept : Obligations.LinesFollowTraceIsKept := by
  intro s t hs h
  obtain hsame | ⟨op, ops, rfl⟩ := step_lines h
  · exact hsame.linesFollowTrace hs
  · exact linesFollowTrace_performOp (s := { s with pending := ops }) op hs

/-- Settles O38: the step is the law of a pending operation; performing it is one update of trace, levels
and latches. -/
theorem pendingOperationGoesFirst : Obligations.PendingOperationGoesFirst := by
  intro s op ops hst hp
  refine ⟨step_of_pending hst hp, ?_⟩
  rcases op with l | ⟨l, b⟩ <;> cases l <;> exact ⟨_, _, _, _, rfl⟩

/-! ### The input -/

/-- A unit's meaning takes no notice of the bytes that wait (R36). -/
theorem exec_deliver {i : Instr} {s t : State} (b : Byte) (h : exec i s = .next t) :
    exec i (deliver b s) = .next (deliver b t) := by
  cases i <;> cases h <;> rfl

/-- A line operation takes no notice of the bytes that wait (R36). -/
theorem performOp_deliver (op : LineOp) (b : Byte) (s : State) :
    performOp op (deliver b s) = deliver b (performOp op s) := by
  rcases op with l | ⟨l, v⟩ <;> cases l <;> rfl

/-- Settles O25: whichever of the other five things a step does, it takes at most the byte at the front,
and the delivered one goes to the back. -/
theorem deliveryCommutesWithStep : Obligations.DeliveryCommutesWithStep := by
  intro s t b hq h
  obtain ⟨hst, rfl⟩ | ⟨hst, op, ops, hp, rfl⟩ | ⟨hq', -⟩ | ⟨hb, c, rest, hr, hc, rfl⟩ |
    ⟨hb, c, rest, hr, hc, rfl⟩ | ⟨hn, hph, c, rest, hr, hv⟩ := step_cases h
  · exact step_of_resetting (s := deliver b s) hst
  · rw [step_of_pending (s := deliver b s) hst hp]
    exact congrArg _ (performOp_deliver op b { s with pending := ops })
  · exact absurd hq' hq
  · exact step_of_index (s := deliver b s) (rest := rest ++ [b]) hb (by simp [hr]) hc
  · exact step_of_junk (s := deliver b s) (rest := rest ++ [b]) hb (by simp [hr]) hc
  · rw [step_of_value (s := deliver b s) (b := c) (rest := rest ++ [b]) hn hph (by simp [hr])]
    exact exec_deliver b hv

/-! ### The latched fields -/

/-- Junk bytes in `SEEK_INDEX` leave the state as it is, however many there are (R176). -/
theorem consume_of_no_index {s : State} {bs : List Byte} (h : s.phase = .seekIndex)
    (hbs : ¬ ∃ b ∈ bs, isIndexByte b = true) : consume s bs = s := by
  induction bs with
  | nil => rfl
  | cons b bs ih =>
    have hb : isIndexByte b = false := by
      by_contra hb
      exact hbs ⟨b, List.mem_cons_self, by simpa using hb⟩
    rw [consume_cons, decodeByte_junk h hb]
    exact ih fun ⟨c, hc, hi⟩ => hbs ⟨c, List.mem_cons_of_mem b hc, hi⟩

/-- The first index byte overwrites both latched fields, so what they held is never read (R22, R23). -/
theorem consume_latched_eq {s : State} {bs : List Byte} (p : BitVec 5) (c : BitVec 2)
    (h : s.phase = .seekIndex) (hbs : ∃ b ∈ bs, isIndexByte b = true) :
    consume { s with idx := p, ch := c } bs = consume s bs := by
  induction bs with
  | nil => simp at hbs
  | cons b bs ih =>
    rw [consume_cons, consume_cons]
    rcases hb : isIndexByte b with _ | _
    · rw [decodeByte_junk h hb, decodeByte_junk (s := { s with idx := p, ch := c }) h hb]
      exact ih (by simpa [hb] using hbs)
    · rw [decodeByte_index h hb, decodeByte_index (s := { s with idx := p, ch := c }) h hb]
      rfl

/-- Settles O52: either an index byte comes and overwrites both fields, or all bytes are junk and nothing
changes. -/
theorem latchedFieldsAreNotReadInSeekIndex : Obligations.LatchedFieldsAreNotReadInSeekIndex := by
  intro s p c bs h t
  refine ⟨?_, consume_latched_eq p c h⟩
  by_cases hbs : ∃ b ∈ bs, isIndexByte b = true
  · rw [consume_latched_eq p c h hbs]
  · rw [consume_of_no_index h hbs, consume_of_no_index (s := t) h hbs]

end Sys2Proof.Machine
end

section
/-! SUPPORT. The two views of R39: the steps that consume a unit's bytes, and the steps that handle one byte
and drain what it commits, against `exec` and `decode_byte`. -/

namespace Sys2Proof.Machine

/-- A command latches its own fields, so it makes no difference that they are latched already. -/
theorem exec_commandOf_latchIndex (p : BitVec 5) (c : BitVec 2) (v : Byte) (s : State) :
    exec (commandOf p c v) (latchIndex p c s) = exec (commandOf p c v) s := by
  rw [exec_commandOf, exec_commandOf]
  rfl

/-- The two steps of a command from a unit boundary are its meaning (R170). -/
theorem runSteps_command {s : State} {b v : Byte} {rest : List Byte} (h : s.atBoundary)
    (hr : s.rx = b :: v :: rest) (hb : isIndexByte b = true) :
    runSteps 2 s = exec (commandOf (pixelField b) (channelField b) v) (withRx rest s) := by
  have hvalue : step (latchIndex (pixelField b) (channelField b) (withRx (v :: rest) s)) =
      exec (commandOf (pixelField b) (channelField b) v)
        (latchIndex (pixelField b) (channelField b) (withRx rest s)) :=
    step_of_value h.1 rfl rfl
  rw [exec_commandOf_latchIndex] at hvalue
  obtain ⟨t, ht⟩ := exec_next (commandOf (pixelField b) (channelField b) v) (withRx rest s)
  rw [runSteps_succ (step_of_index h hr hb), runSteps_succ (hvalue.trans ht), runSteps_zero, ht]

/-- Settles O11: a unit is a junk byte, run in one step, or a command, run in two. -/
theorem stepsRunDecodedUnit : Obligations.StepsRunDecodedUnit := by
  intro s bs rest i h hbs hd _
  obtain ⟨b, rfl, hb, rfl⟩ | ⟨b, v, rfl, hb, rfl⟩ := decode_unit_cases hd
  · exact runSteps_succ (step_of_junk h hbs hb) 0
  · rw [encode_commandOf]
    exact runSteps_command h hbs hb

/-- No unit's meaning touches the stage (R240). -/
theorem exec_stage {i : Instr} {s t : State} (h : exec i s = .next t) : t.stage = s.stage := by
  cases i <;> cases h <;> rfl

/-! ### One byte and what it commits, against `decode_byte` -/

/-- The state with every pending operation performed: what the view of R39 that keeps no `PENDING` has at
once. -/
def State.drained (s : State) : State := performAll s.pending { s with pending := [] }

/-- As many steps as operations are pending perform them all. -/
theorem runSteps_pending {s : State} (h : s.stage = .running) :
    runSteps s.pending.length s = .next s.drained :=
  runSteps_drain h (b := []) (by simp)

/-- With nothing pending there is nothing to perform. -/
theorem State.drained_of_pending_nil {s : State} (h : s.pending = []) : s.drained = s := by
  rw [State.drained, h, performAll_nil, ← h]

/-- Performing operations commutes with any update that performing one operation commutes with. -/
theorem performAll_comm {f : State → State} (hf : ∀ op s, performOp op (f s) = f (performOp op s))
    (ops : List LineOp) (s : State) : performAll ops (f s) = f (performAll ops s) := by
  induction ops generalizing s with
  | nil => rfl
  | cons op ops ih => rw [performAll_cons, performAll_cons, hf, ih]

/-- Performing operations and ending the unit come in either order (log entry 4). -/
theorem performAll_endUnit (ops : List LineOp) (s : State) :
    performAll ops (endUnit s) = endUnit (performAll ops s) :=
  performAll_comm (fun op t => by rcases op with l | ⟨l, b⟩ <;> cases l <;> rfl) ops s

/-- Performing operations takes no notice of the bytes that wait (R36). -/
theorem performAll_withRx (ops : List LineOp) (bs : List Byte) (s : State) :
    performAll ops (withRx bs s) = withRx bs (performAll ops s) :=
  performAll_comm (fun op t => by rcases op with l | ⟨l, b⟩ <;> cases l <;> rfl) ops s

theorem State.drained_endUnit (s : State) : (endUnit s).drained = endUnit s.drained :=
  performAll_endUnit s.pending { s with pending := [] }

/-- The trigger, drained, is a frame sent at once (R174). -/
theorem State.drained_completionTrigger {s : State} (ok : Bool) (p : BitVec 5) (h : s.pending = []) :
    (completionTrigger ok p s).drained =
      if p = 31#5 ∧ ok = true then performAll (frameOps s.fb) s else s := by
  split
  · next hsend =>
    have hpending : (completionTrigger ok p s).pending = frameOps s.fb := by
      simp [hsend, triggerPixel, h]
    rw [State.drained, hpending, completionTrigger_eq, ← h]
  · next hsend =>
    have hpending : (completionTrigger ok p s).pending = s.pending := by
      simp only [completionTrigger_pending, triggerPixel, Bool.and_eq_true, beq_iff_eq, if_neg hsend]
    have hsame : completionTrigger ok p s = s := by
      rw [completionTrigger_eq, ← completionTrigger_pending, hpending]
    rw [hsame, State.drained_of_pending_nil h]

/-- A command run where nothing is pending, drained, is `decode_byte` of its value byte (R170, R173). -/
theorem exec_commandOf_drained {s t : State} {b : Byte} (hp : s.pending = [])
    (hph : s.phase = .seekValue) (h : exec (commandOf s.idx s.ch b) s = .next t) :
    t.drained = decodeByte s b := by
  have hlatched : latchIndex s.idx s.ch s = s := by rw [latchIndex, ← hph]
  rw [exec_commandOf, hlatched] at h
  rw [decodeByte_value b hph]
  by_cases hc : s.ch = 3#2
  · rw [if_pos (show s.ch = reservedSelector from hc)] at h
    rw [if_pos hc]
    cases h
    exact State.drained_of_pending_nil hp
  · rw [if_neg (show ¬ s.ch = reservedSelector from hc)] at h
    rw [if_neg hc]
    cases h
    rw [State.drained_endUnit, State.drained_completionTrigger _ _ (by exact hp), ← apply_ite endUnit]
    congr 1
    simp only [Bool.and_eq_true, beq_iff_eq, and_left_comm]
    rfl

/-- `decode_byte` takes no notice of the bytes that wait (R36). -/
theorem decodeByte_withRx (s : State) (b : Byte) (bs : List Byte) :
    decodeByte (withRx bs s) b = withRx bs (decodeByte s b) := by
  rcases hph : s.phase with _ | _
  · rcases hb : isIndexByte b with _ | _
    · rw [decodeByte_junk hph hb, decodeByte_junk (s := withRx bs s) hph hb]
    · rw [decodeByte_index hph hb, decodeByte_index (s := withRx bs s) hph hb]
      rfl
  · rw [decodeByte_value b hph, decodeByte_value (s := withRx bs s) b hph]
    simp only [withRx_ch, withRx_fb, withRx_idx, apply_ite (withRx bs)]
    congr 2
    exact congrArg endUnit (performAll_withRx _ bs (storeCell (directCell s.idx s.ch) b s))

theorem consume_withRx (s : State) (bs cs : List Byte) :
    consume (withRx cs s) bs = withRx cs (consume s bs) := by
  induction bs generalizing s with
  | nil => rfl
  | cons b bs ih => rw [consume_cons, consume_cons, decodeByte_withRx, ih]

/-- After `decode_byte` the core is about to read again: what it sends is performed at once (R39). -/
theorem decodeByte_readsNext {s : State} (b : Byte) (h : s.readsNext) : (decodeByte s b).readsNext := by
  rcases hph : s.phase with _ | _
  · rcases hb : isIndexByte b with _ | _
    · rwa [decodeByte_junk hph hb]
    · rw [decodeByte_index hph hb]
      exact h
  · rw [decodeByte_value b hph]
    obtain ⟨hst, hp⟩ := h
    split
    · exact ⟨hst, hp⟩
    · split
      · exact ⟨by simpa using hst, by simpa using hp⟩
      · exact ⟨hst, hp⟩

/-- The steps that read one byte and perform what it commits are `decode_byte` (R39, R170). -/
theorem runSteps_decodeByte {s : State} {b : Byte} {rest : List Byte} (h : s.readsNext)
    (hr : s.rx = b :: rest) : ∃ k, runSteps k s = .next (decodeByte (withRx rest s) b) := by
  rcases hph : s.phase with _ | _
  · refine ⟨1, ?_⟩
    rcases hb : isIndexByte b with _ | _
    · rw [decodeByte_junk (s := withRx rest s) hph hb]
      exact runSteps_succ (step_of_junk ⟨h, hph⟩ hr hb) 0
    · rw [decodeByte_index (s := withRx rest s) hph hb]
      exact runSteps_succ (step_of_index ⟨h, hph⟩ hr hb) 0
  · obtain ⟨t, ht⟩ := exec_next (commandOf s.idx s.ch b) (withRx rest s)
    have hstage : t.stage = .running := by
      rw [exec_stage ht]; exact h.1
    refine ⟨t.pending.length + 1, ?_⟩
    rw [runSteps_succ ((step_of_value h hph hr).trans ht), runSteps_pending hstage,
      exec_commandOf_drained (s := withRx rest s) h.2 hph ht]

/-- Settles O41: byte by byte along the input; at its end the core is blocked and stays where it is. -/
theorem stepsRefineDecodeByteFold : Obligations.StepsRefineDecodeByteFold := by
  intro s h
  induction hr : s.rx generalizing s with
  | nil =>
    refine ⟨0, fun m => ?_⟩
    rw [Nat.zero_add, runSteps_of_quiescent ⟨h, hr⟩, consume_nil, ← hr]
  | cons b rest ih =>
    obtain ⟨j, hj⟩ := runSteps_decodeByte h hr
    rw [decodeByte_withRx] at hj
    obtain ⟨k, hk⟩ := ih (withRx rest (decodeByte s b)) (decodeByte_readsNext b h) rfl
    refine ⟨j + k, fun m => ?_⟩
    rw [Nat.add_assoc, runSteps_add hj, hk, consume_withRx]
    rfl

end Sys2Proof.Machine
end

section
/-! SUPPORT. The counters of a sequence (R40): which operation stands at each place of a frame send and of
the initialisation, and that the counters name it. -/

namespace Sys2Proof.Machine

/-! ### The operation at each place -/

/-- Operation `ph` of a bit-period (R111). -/
theorem bitPeriodOps_getElem? (b : Bool) {ph : Nat} (h : ph < 3) :
    (bitPeriodOps b)[ph]? = some (bitPhaseOp b ph) := by
  interval_cases ph <;> rfl

/-- Bit-period `m` of a byte sends bit 7 - `m` (R110). -/
theorem bitOrder_getElem? {m : Nat} (h : m < 8) : [7, 6, 5, 4, 3, 2, 1, 0][m]? = some (7 - m) := by
  interval_cases m <;> rfl

/-- Operation `j` of an emitted byte is of bit 7 - `j` / 3 and bit phase `j` % 3 (R110, R111). -/
theorem emitOps_getElem? (v : Byte) {j : Nat} (h : j < 24) :
    (emitOps v)[j]? = some (bitPhaseOp (v.getLsbD (7 - j / 3)) (j % 3)) := by
  have hblock := getElem?_flatMap_block (f := fun i => bitPeriodOps (v.getLsbD i)) (fun _ => rfl)
    [7, 6, 5, 4, 3, 2, 1, 0] (j / 3) (j % 3) (Nat.mod_lt j (by decide))
  rw [Nat.div_add_mod, bitOrder_getElem? (by omega), Option.bind_some,
    bitPeriodOps_getElem? _ (Nat.mod_lt j (by decide))] at hblock
  exact hblock

/-- Operation `k` of a stretch of emitted bytes is of byte `k` / 24, in which its place is `k` % 24. -/
theorem flatMap_emitOps_getElem? (bs : List Byte) (k : Nat) :
    (bs.flatMap emitOps)[k]? =
      bs[k / 24]?.map fun v => bitPhaseOp (v.getLsbD (7 - k % 24 / 3)) (k % 3) := by
  have hblock := getElem?_flatMap_block emitOps_length bs (k / 24) (k % 24) (Nat.mod_lt k (by decide))
  rw [Nat.div_add_mod] at hblock
  rw [hblock, ← Nat.mod_mod_of_dvd k (show 3 ∣ 24 by decide)]
  cases bs[k / 24]? with
  | none => rfl
  | some v => exact emitOps_getElem? v (Nat.mod_lt k (by decide))

/-- A frame is 97 bytes a strip (R90). -/
theorem frameBytes_length (fb : FrameBuffer) : (frameBytes fb).length = 97 * fb.length := by
  rw [frameBytes, List.length_append, length_flatMap_block stripWireBytes_length, List.length_replicate]
  omega

/-- A frame send is 2328 operations a strip (R136). -/
theorem frameOps_length (fb : FrameBuffer) : (frameOps fb).length = 2328 * fb.length := by
  rw [frameOps, flatMap_emitOps_length, frameBytes_length]
  omega

/-- Byte `j` of a pixel is its green, blue or red cell, marked (R53, R88, R131). -/
theorem pixelWireBytes_getElem? (col : Color) {j : Nat} (h : j < 3) :
    (pixelWireBytes col)[j]? = (col.cell? (wireChannel j)).map (· ||| 0x80#8) := by
  interval_cases j <;> rfl

/-- A byte of the pixel data of a frame is the marked cell its place names (R90). -/
theorem frameBytes_getElem?_pixel (fb : FrameBuffer) {i : Nat} (h : i < 96 * fb.length) :
    (frameBytes fb)[i]? =
      (fbRead fb ⟨i / 96, i % 96 / 3, wireChannel (i % 3)⟩).map (· ||| 0x80#8) := by
  have hstrip := getElem?_flatMap_block stripWireBytes_length fb (i / 96) (i % 96)
    (Nat.mod_lt i (by decide))
  rw [Nat.div_add_mod] at hstrip
  rw [frameBytes, List.getElem?_append_left (by rwa [length_flatMap_block stripWireBytes_length]), hstrip,
    fbRead]
  cases fb[i / 96]? with
  | none => rfl
  | some st =>
    have hpixel := getElem?_flatMap_block pixelWireBytes_length st.toList (i % 96 / 3) (i % 96 % 3)
      (Nat.mod_lt _ (by decide))
    rw [Nat.div_add_mod, Nat.mod_mod_of_dvd i (show 3 ∣ 96 by decide), Vector.getElem?_toList] at hpixel
    rw [Option.bind_some, hpixel]
    cases hcol : st[i % 96 / 3]? with
    | none => simp [hcol]
    | some col => simpa [hcol] using pixelWireBytes_getElem? col (Nat.mod_lt i (by decide))

/-- The bytes after the pixel data of a frame are latch bytes (R89, R90). -/
theorem frameBytes_getElem?_latch (fb : FrameBuffer) {i : Nat} (h : 96 * fb.length ≤ i)
    (h' : i < 97 * fb.length) : (frameBytes fb)[i]? = some latchByte := by
  rw [frameBytes, List.getElem?_append_right (by rwa [length_flatMap_block stripWireBytes_length]),
    length_flatMap_block stripWireBytes_length, List.getElem?_replicate, if_pos (by omega)]

/-- Operation `k` of an initialisation, after the two `CfgOut`, is of a latch byte (R241). -/
theorem initOps_getElem?_latch {n k : Nat} (h : 2 ≤ k) (h' : k < 2 + 24 * n) :
    (initOps n)[k]? = some (bitPhaseOp (latchByte.getLsbD (7 - (k - 2) % 24 / 3)) ((k - 2) % 3)) := by
  rw [initOps, List.getElem?_append_right h, flatMap_emitOps_getElem?]
  simp only [List.length_cons, List.length_nil]
  rw [List.getElem?_replicate, if_pos (by omega), Option.map_some]

/-! ### The counters name it -/

/-- The counters in the pixel data. -/
theorem sendPos_of_pixel {n k : Nat} (h : k / 24 < 96 * n) :
    sendPos n k = .pixelData (k / 24 / 96) (k / 24 % 96 / 3) (k / 24 % 3) (7 - k % 24 / 3) (k % 3) :=
  if_pos h

/-- The counters in the latch bytes. -/
theorem sendPos_of_latch {n k : Nat} (h : 96 * n ≤ k / 24) :
    sendPos n k = .latch (k / 24 - 96 * n) (7 - k % 24 / 3) (k % 3) :=
  if_neg (by omega)

/-- Operation `k` of a send is the one its counters select (R40). -/
theorem frameOps_getElem?_eq_opAtPos (fb : FrameBuffer) {k : Nat} (h : k < 2328 * fb.length) :
    (frameOps fb)[k]? = opAtPos fb (sendPos fb.length k) := by
  rw [frameOps, flatMap_emitOps_getElem?]
  rcases Nat.lt_or_ge (k / 24) (96 * fb.length) with hk | hk
  · rw [sendPos_of_pixel hk, frameBytes_getElem?_pixel fb hk, Option.map_map]
    rfl
  · rw [sendPos_of_latch hk, frameBytes_getElem?_latch fb hk (by omega)]
    rfl

/-- Settles O37: the operation is the one the counters select, and division keeps each in its range. -/
theorem countersSelectTheNextOperation : Obligations.CountersSelectTheNextOperation := by
  intro fb k h
  refine ⟨frameOps_getElem?_eq_opAtPos fb h, ?_⟩
  rcases Nat.lt_or_ge (k / 24) (96 * fb.length) with hk | hk
  · rw [sendPos_of_pixel hk]
    dsimp only
    omega
  · rw [sendPos_of_latch hk]
    dsimp only
    omega

/-- The place the counters of a send stand for is the number of operations performed (R40). -/
theorem performed_sendPos (n k : Nat) : (sendPos n k).performed n = k := by
  rcases Nat.lt_or_ge (k / 24) (96 * n) with hk | hk
  · rw [sendPos_of_pixel hk]
    dsimp only [SendPos.performed]
    omega
  · rw [sendPos_of_latch hk]
    dsimp only [SendPos.performed]
    omega

/-- No counter runs at the two `CfgOut` (log entry 13). -/
theorem initPos_of_lt {k : Nat} (h : k < 2) : initPos k = none := if_pos h

/-- After them an initialisation has the counters of a latch byte (R241). -/
theorem initPos_of_le {k : Nat} (h : 2 ≤ k) :
    initPos k = some (.latch ((k - 2) / 24) (7 - (k - 2) % 24 / 3) ((k - 2) % 3)) :=
  if_neg (by omega)

/-- The first two operations of an initialisation (R241, D6). -/
theorem initOps_getElem?_cfgOut (n : Nat) {k : Nat} (h : k < 2) :
    (initOps n)[k]? = some (.cfgOut (if k = 0 then .data else .clock)) := by
  interval_cases k <;> rfl

/-- Settles O59: a send by dividing its place up and putting it together again; an initialisation is the two
`CfgOut` and then latch bytes. -/
theorem countersFollowOperationsPerformed : Obligations.CountersFollowOperationsPerformed := by
  intro fb k
  refine ⟨fun _ => performed_sendPos fb.length k,
    fun h => ⟨initPos_of_lt h, initOps_getElem?_cfgOut fb.length h⟩, fun h h' => ?_⟩
  refine ⟨_, _, _, initPos_of_le h, by omega, by omega, by omega, by omega, ?_⟩
  rw [initOps_getElem?_latch h h']
  rfl

/-! ### `PENDING` holds the counters -/

/-- No counter runs while a `CfgOut` is next (log entry 13). -/
theorem counters_of_cfgOut {s : State} {l : Line} (h : s.pending.head? = some (.cfgOut l)) :
    counters s = none := by
  obtain ⟨ops, hops⟩ := List.head?_eq_some_iff.1 h
  rw [counters, hops]

/-- While an operation of a bit-period is next, the counters are those of a send with as much left. -/
theorem counters_of_bitPhaseOp {s : State} {b : Bool} {ph : Nat}
    (h : s.pending.head? = some (bitPhaseOp b ph)) :
    counters s = some (sendPos s.fb.length (2328 * s.fb.length - s.pending.length)) := by
  obtain ⟨ops, hops⟩ := List.head?_eq_some_iff.1 h
  rcases ph with _ | _ | ph <;> rw [counters, hops] <;> rfl

/-- Every operation of a send belongs to a bit-period (R136). -/
theorem frameOps_getElem?_bitPhaseOp (fb : FrameBuffer) {k : Nat} (h : k < 2328 * fb.length) :
    ∃ b ph, (frameOps fb)[k]? = some (bitPhaseOp b ph) := by
  rw [frameOps, flatMap_emitOps_getElem?,
    List.getElem?_eq_getElem (i := k / 24) (by rw [frameBytes_length]; omega)]
  exact ⟨_, _, rfl⟩

/-- With what is left of a send pending, the counters are those of the send. -/
theorem counters_of_pending_frameOps {s : State} {k : Nat} (h : k < 2328 * s.fb.length)
    (hp : s.pending = (frameOps s.fb).drop k) : counters s = some (sendPos s.fb.length k) := by
  obtain ⟨b, ph, hop⟩ := frameOps_getElem?_bitPhaseOp s.fb h
  rw [counters_of_bitPhaseOp (b := b) (ph := ph) (by rw [hp, List.head?_drop, hop]), hp,
    List.length_drop, frameOps_length, Nat.sub_sub_self h.le]

/-- An initialisation ends in the latch bytes a send ends in, so with as much left the counters agree. -/
theorem sendPos_of_init {n k : Nat} (h : 2 ≤ k) (h' : k < 2 + 24 * n) :
    some (sendPos n (2328 * n - (2 + 24 * n - k))) = initPos k := by
  have hplace : 2328 * n - (2 + 24 * n - k) = 24 * (96 * n) + (k - 2) := by omega
  rw [hplace, sendPos_of_latch (by omega), initPos_of_le h]
  congr 2 <;> omega

/-- With what is left of the initialisation pending, the counters are those of the initialisation. -/
theorem counters_of_pending_initOps {s : State} {k : Nat} (h : k < 2 + 24 * s.fb.length)
    (hp : s.pending = (initOps s.fb.length).drop k) : counters s = initPos k := by
  rcases Nat.lt_or_ge k 2 with hk | hk
  · rw [initPos_of_lt hk]
    exact counters_of_cfgOut (by rw [hp, List.head?_drop, initOps_getElem?_cfgOut _ hk])
  · rw [counters_of_bitPhaseOp (by rw [hp, List.head?_drop, initOps_getElem?_latch hk h]), hp,
      List.length_drop, initOps_length, sendPos_of_init hk h]

/-- What is pending under the invariants is the rest of the initialisation or of a frame of the buffer as
it stands (R64, R139). -/
theorem pending_eq_drop {s : State} (hb : BufferShape s) (ht : TraceIsWholeFrames s)
    (hp : s.pending ≠ []) :
    (∃ k < 2 + 24 * s.fb.length, s.pending = (initOps s.fb.length).drop k) ∨
    ∃ k < 2328 * s.fb.length, s.pending = (frameOps s.fb).drop k := by
  have hpos : 0 < s.pending.length := List.length_pos_iff.2 hp
  rw [TraceIsWholeFrames] at ht
  cases hst : s.stage with
  | resetting =>
    rw [hst] at ht
    exact absurd ht.2 hp
  | running =>
    rw [hst] at ht
    obtain ⟨sent, -, ⟨hnil, -⟩ | ⟨-, -, hinit⟩ | ⟨-, hframe, -⟩⟩ := ht
    · exact absurd hnil hp
    · rw [← hb.1] at hinit
      have hlen := congrArg List.length hinit
      rw [List.length_append, initOps_length] at hlen
      exact .inl ⟨s.trace.length, by omega, by rw [← hinit, List.drop_left]⟩
    · have hlen := hframe.length_le
      rw [frameOps_length] at hlen
      refine .inr ⟨2328 * s.fb.length - s.pending.length, by omega, ?_⟩
      rw [← frameOps_length]
      exact List.suffix_iff_eq_drop.1 hframe

/-- In a state that meets the invariants the first pending operation is a `CfgOut`, at which no counter
runs, or the one the counters select. -/
theorem pending_head_selected {s : State} {op : LineOp} (hb : BufferShape s)
    (ht : TraceIsWholeFrames s) (hop : s.pending.head? = some op) :
    (counters s = none ∧ ∃ l, op = .cfgOut l) ∨
    ∃ pos, counters s = some pos ∧ opAtPos s.fb pos = some op := by
  have hne : s.pending ≠ [] := by
    rintro hnil
    simp [hnil] at hop
  obtain ⟨k, hk, hp⟩ | ⟨k, hk, hp⟩ := pending_eq_drop hb ht hne
  · rw [hp, List.head?_drop] at hop
    rw [counters_of_pending_initOps hk hp]
    obtain ⟨-, hcfg, hlatch⟩ := countersFollowOperationsPerformed s.fb k
    rcases Nat.lt_or_ge k 2 with hk2 | hk2
    · obtain ⟨hnone, hfirst⟩ := hcfg hk2
      rw [hop, Option.some_inj] at hfirst
      exact .inl ⟨hnone, _, hfirst⟩
    · obtain ⟨j, bit, ph, hpos, -, -, -, -, hsel⟩ := hlatch hk2 hk
      exact .inr ⟨_, hpos, hsel ▸ hop⟩
  · rw [hp, List.head?_drop] at hop
    exact .inr ⟨_, counters_of_pending_frameOps hk hp, frameOps_getElem?_eq_opAtPos s.fb hk ▸ hop⟩

/-- Settles O60: what is left of either sequence fixes the counters, and under the invariants what is
pending is what is left of one of the two. -/
theorem pendingHoldsTheCounters : Obligations.PendingHoldsTheCounters := by
  refine ⟨fun _ _ => counters_of_pending_frameOps, fun _ _ => counters_of_pending_initOps,
    fun s h => ?_, fun s op ops hb ht hp => ?_⟩
  · rw [counters, h]
  · exact pending_head_selected hb ht (by rw [hp, List.head?_cons])

end Sys2Proof.Machine
end

section
/-! SUPPORT. The buffer as memory (20_memory.md): which cells exist, that writing a cell twice is writing it
once, the order of the output, the decoder registers apart from the buffer, and what a step does to the
frames sent and committed. -/

namespace Sys2Proof.Machine

/-! ### The cells that exist -/

/-- Settles O28: a triple has a reading exactly when it names a cell. -/
theorem exactlyTheMappedCellsExist : Obligations.ExactlyTheMappedCellsExist := by
  intro fb a
  rw [← Option.isSome_iff_exists, fbRead_isSome, namesCell_iff, Nat.lt_succ_iff, Nat.lt_succ_iff]

/-! ### What has been sent and is committed to be sent -/

/-- A unit leaves `PENDING` as it is, or puts one frame of the buffer it leaves behind it (R64, R174). -/
theorem exec_pending {i : Instr} {s t : State} (h : exec i s = .next t) :
    t.pending = s.pending ∨ t.pending = s.pending ++ frameOps t.fb := by
  cases i with
  | setb p v =>
    cases h
    rw [endUnit_pending, completionTrigger_pending]
    split
    · exact .inr rfl
    · exact .inl rfl
  | setr p v => cases h; exact .inl rfl
  | setg p v => cases h; exact .inl rfl
  | skip p v => cases h; exact .inl rfl
  | junk b => cases h; exact .inl rfl

/-- A unit leaves the number of strips as it is (R26). -/
theorem exec_fb_length {i : Instr} {s t : State} (h : exec i s = .next t) :
    t.fb.length = s.fb.length := by
  obtain hfb | ⟨p, c, v, hfb⟩ := exec_fb h
  · rw [hfb]
  · rw [hfb, fbWrite_length]

/-- `ops` is the initialisation sequence followed by whole frames of `N_STRIPS` strips (R135, R138). -/
def InitThenFrames (ops : List LineOp) : Prop :=
  ∃ sent : List FrameBuffer, (∀ f ∈ sent, f.length = Config.nStrips) ∧
    ops = initOps Config.nStrips ++ sent.flatMap frameOps

/-- The initialisation alone is followed by no frame. -/
theorem initThenFrames_initOps : InitThenFrames (initOps Config.nStrips) := ⟨[], by simp, by simp⟩

/-- One more frame after whole frames. -/
theorem InitThenFrames.append_frameOps {ops : List LineOp} {fb : FrameBuffer} (h : InitThenFrames ops)
    (hfb : fb.length = Config.nStrips) : InitThenFrames (ops ++ frameOps fb) := by
  obtain ⟨sent, hsent, rfl⟩ := h
  refine ⟨sent ++ [fb], fun f hf => ?_, by simp⟩
  obtain hf | hf := List.mem_append.1 hf
  · exact hsent f hf
  · rw [List.mem_singleton.1 hf, hfb]

/-- About to read a byte, the core has sent the initialisation and whole frames, and nothing else. -/
theorem traceIsWholeFrames_of_readsNext {s : State} (h : s.readsNext) :
    TraceIsWholeFrames s ↔ InitThenFrames s.trace := by
  obtain ⟨hst, hp⟩ := h
  simp [TraceIsWholeFrames, InitThenFrames, hst, hp]

/-- With operations pending, the initialisation or a frame of the buffer as it stands is in flight. -/
theorem traceIsWholeFrames_of_pending {s : State} (hst : s.stage = .running) (hp : s.pending ≠ []) :
    TraceIsWholeFrames s ↔
      s.trace ++ s.pending = initOps Config.nStrips ∨
      (s.pending <:+ frameOps s.fb ∧
        ∃ ops, InitThenFrames ops ∧ s.trace ++ s.pending = ops ++ frameOps s.fb) := by
  simp only [TraceIsWholeFrames, hst]
  constructor
  · rintro ⟨sent, hsent, ⟨hnil, -⟩ | ⟨-, -, hinit⟩ | ⟨-, hsuffix, hframe⟩⟩
    · exact absurd hnil hp
    · exact .inl hinit
    · exact .inr ⟨hsuffix, _, ⟨sent, hsent, rfl⟩, hframe⟩
  · rintro (hinit | ⟨hsuffix, _, ⟨sent, hsent, rfl⟩, hframe⟩)
    · exact ⟨[], by simp, .inr (.inl ⟨hp, rfl, hinit⟩)⟩
    · exact ⟨sent, hsent, .inr (.inr ⟨hp, hsuffix, hframe⟩)⟩

/-- Starting the initialisation commits the whole of it (R240, R241). -/
theorem traceIsWholeFrames_beginInit {s : State} (hlen : s.fb.length = Config.nStrips)
    (hst : s.stage = .resetting) (h : TraceIsWholeFrames s) : TraceIsWholeFrames (beginInit s) := by
  simp only [TraceIsWholeFrames, hst] at h
  obtain ⟨htrace, hpending⟩ := h
  have hp : (beginInit s).pending = initOps Config.nStrips := by rw [beginInit_pending, hpending, hlen]; rfl
  refine (traceIsWholeFrames_of_pending rfl ?_).2 (.inl ?_)
  · rw [hp]; exact List.cons_ne_nil _ _
  · rw [hp, beginInit_trace, htrace]; rfl

/-- Performing the first pending operation moves it from what is pending to what has been sent; the last
one of a frame makes that frame a whole one (R137). -/
theorem traceIsWholeFrames_performOp {s : State} {op : LineOp} {ops : List LineOp}
    (hlen : s.fb.length = Config.nStrips) (hst : s.stage = .running) (hp : s.pending = op :: ops)
    (h : TraceIsWholeFrames s) : TraceIsWholeFrames (performOp op { s with pending := ops }) := by
  rw [traceIsWholeFrames_of_pending hst (by simp [hp]), hp] at h
  have hst' : (performOp op { s with pending := ops }).stage = .running := by simpa using hst
  by_cases hops : ops = []
  · subst hops
    rw [traceIsWholeFrames_of_readsNext ⟨hst', by simp⟩, performOp_trace]
    obtain hinit | ⟨-, sent, hsent, hframe⟩ := h
    · exact hinit ▸ initThenFrames_initOps
    · exact hframe ▸ hsent.append_frameOps hlen
  · rw [traceIsWholeFrames_of_pending hst' (by simpa using hops)]
    simp only [performOp_trace, performOp_pending, performOp_fb, List.append_assoc, List.singleton_append]
    exact h.imp_right fun ⟨hsuffix, hsent⟩ => ⟨(List.suffix_cons op ops).trans hsuffix, hsent⟩

/-- A unit sends nothing, and commits nothing or one whole frame of the buffer it leaves (R64, R135). -/
theorem traceIsWholeFrames_exec {i : Instr} {s t : State} (hlen : s.fb.length = Config.nStrips)
    (hn : s.readsNext) (h : TraceIsWholeFrames s) (ht : exec i s = .next t) : TraceIsWholeFrames t := by
  obtain ⟨hst, hp⟩ := hn
  have hst' : t.stage = .running := (exec_stage ht).trans hst
  rw [traceIsWholeFrames_of_readsNext ⟨hst, hp⟩, ← exec_trace ht] at h
  obtain hpending | hpending := exec_pending ht
  · exact (traceIsWholeFrames_of_readsNext ⟨hst', hpending.trans hp⟩).2 h
  · rw [hp, List.nil_append] at hpending
    have hne : t.pending ≠ [] := by
      rw [← List.length_pos_iff, hpending, frameOps_length, exec_fb_length ht, hlen]
      exact Nat.mul_pos (by decide) Config.nStrips_pos
    exact (traceIsWholeFrames_of_pending hst' hne).2
      (.inr ⟨by rw [hpending], t.trace, h, by rw [hpending]⟩)

/-- Settles O55: the initialisation and each frame are committed whole, while nothing is pending, and then
performed one operation a step, while the buffer does not change. -/
theorem traceIsWholeFramesIsKept : Obligations.TraceIsWholeFramesIsKept := by
  rintro s t ⟨hlen, -⟩ hs h
  obtain ⟨hst, rfl⟩ | ⟨hst, op, ops, hp, rfl⟩ | ⟨-, rfl⟩ | ⟨-, b, rest, -, -, rfl⟩ |
    ⟨-, b, rest, -, -, rfl⟩ | ⟨hn, -, b, rest, -, hv⟩ := step_cases h
  · exact traceIsWholeFrames_beginInit hlen hst hs
  · exact traceIsWholeFrames_performOp hlen hst hp hs
  · exact hs
  · exact hs
  · exact hs
  · exact traceIsWholeFrames_exec (s := withRx rest s) hlen hn hs hv

/-! ### Sending twice -/

/-- Replacing a cell of a colour twice is replacing it once. -/
theorem Color.put_put (col : Color) (c : Nat) (v : Byte) : (col.put c v).put c v = col.put c v := by
  rcases c with _ | _ | _ | c <;> rfl

/-- Replacing a cell of a strip twice is replacing it once. -/
theorem Strip.put_put (st : Strip) (p c : Nat) (v : Byte) : (st.put p c v).put p c v = st.put p c v := by
  unfold Strip.put
  split
  · rw [Vector.getElem_set_self, Color.put_put, Vector.set_set]
  · rfl

/-- Writing a cell twice is writing it once (R59). -/
theorem fbWrite_fbWrite (fb : FrameBuffer) (a : CellAddr) (v : Byte) :
    (fbWrite (fbWrite fb a v).1 a v).1 = (fbWrite fb a v).1 := by
  cases h : namesCell fb a with
  | false => rw [fbWrite_dropped fb a v h, fbWrite_dropped fb a v h]
  | true =>
    have h' : namesCell (fbWrite fb a v).1 a = true := by
      rw [namesCell_iff, fbWrite_length, ← namesCell_iff, h]
    rw [fbWrite, if_pos h', fbWrite, if_pos h]
    simp only [List.modify_modify_eq]
    congr 1
    exact funext fun st => Strip.put_put st a.pixel a.channel v

/-- What the two bytes of a `FLUSH` do: the cell is written, a frame of the buffer so reached is sent, and
the decoder is at a unit boundary again (R87, R173, R174). -/
theorem consume_flush {s : State} (v : Byte) (h : s.phase = .seekIndex) (hfb : 0 < s.fb.length) :
    consume s [0xFE#8, v] = endUnit (performAll (frameOps (fbWrite s.fb (directCell 31#5 2#2) v).1)
      (storeCell (directCell 31#5 2#2) v (latchIndex 31#5 2#2 s))) := by
  have hindex : decodeByte s 0xFE#8 = latchIndex 31#5 2#2 s := decodeByte_index h (by decide)
  have hcell : namesCell s.fb (directCell 31#5 2#2) = true :=
    (namesCell_iff _ _).2 ⟨hfb, by decide, by decide⟩
  rw [consume_cons, consume_cons, consume_nil, hindex, decodeByte_value v rfl]
  simp [hcell]

/-- Settles O40: the second `FLUSH` writes what the cell already holds, so its frame is the first one's. -/
theorem resendingReproducesTheFrame : Obligations.ResendingReproducesTheFrame := by
  intro s v h hfb
  have hfirst := consume_flush v h hfb
  have hphase : (consume s [0xFE#8, v]).phase = .seekIndex := by rw [hfirst, endUnit_phase]
  have hbuffer : (consume s [0xFE#8, v]).fb = (fbWrite s.fb (directCell 31#5 2#2) v).1 := by
    simp [hfirst]
  have htrace : (consume s [0xFE#8, v]).trace =
      s.trace ++ frameOps (fbWrite s.fb (directCell 31#5 2#2) v).1 := by
    simp [hfirst]
  have hsecond := consume_flush v hphase (by rwa [hbuffer, fbWrite_length])
  refine ⟨_, htrace, ?_, by rw [hbuffer]⟩
  rw [show [0xFE#8, v, 0xFE#8, v] = [0xFE#8, v] ++ [0xFE#8, v] from rfl, consume_append, hsecond, hbuffer,
    fbWrite_fbWrite, endUnit_trace, performAll_trace, storeCell_trace, latchIndex_trace, htrace]

/-! ### The order of the output -/

/-- `decode_byte` only adds to the trace, at its end (R13, R68). -/
theorem decodeByte_trace (s : State) (b : Byte) : ∃ ops, (decodeByte s b).trace = s.trace ++ ops := by
  rcases hph : s.phase with _ | _
  · refine ⟨[], ?_⟩
    rcases hb : isIndexByte b with _ | _
    · rw [decodeByte_junk hph hb, List.append_nil]
    · rw [decodeByte_index hph hb, latchIndex_trace, List.append_nil]
  · rw [decodeByte_value b hph]
    split
    · exact ⟨[], (List.append_nil _).symm⟩
    · split
      · exact ⟨_, performAll_trace _ _⟩
      · exact ⟨[], (List.append_nil _).symm⟩

/-- A stretch of the input only adds to the trace, at its end (R68). -/
theorem consume_trace (s : State) (bs : List Byte) : ∃ ops, (consume s bs).trace = s.trace ++ ops := by
  induction bs generalizing s with
  | nil => exact ⟨[], (List.append_nil _).symm⟩
  | cons b bs ih =>
    obtain ⟨ops, hops⟩ := decodeByte_trace s b
    obtain ⟨ops', hops'⟩ := ih (decodeByte s b)
    exact ⟨ops ++ ops', by rw [consume_cons, hops', hops, List.append_assoc]⟩

/-- Settles O44: each of the two stretches only adds to the trace it finds. -/
theorem outputFollowsInputOrder : Obligations.OutputFollowsInputOrder := by
  intro s bs cs
  obtain ⟨ops₁, h₁⟩ := consume_trace s bs
  obtain ⟨ops₂, h₂⟩ := consume_trace (consume s bs) cs
  exact ⟨ops₁, ops₂, h₁, by rw [consume_append, h₂, h₁]⟩

/-! ### The decoder registers apart from the buffer -/

/-- `s` and `t` hold the same `PH`, `IDX` and `CH`. -/
structure SameRegisters (s t : State) : Prop where
  phase : s.phase = t.phase
  idx : s.idx = t.idx
  ch : s.ch = t.ch

/-- A value byte ends the command and leaves the latched fields, whatever it writes or sends (R170). -/
theorem decodeByte_value_registers {s : State} (b : Byte) (h : s.phase = .seekValue) :
    SameRegisters (decodeByte s b) (endUnit s) := by
  rw [decodeByte_value b h]
  split
  · exact ⟨rfl, rfl, rfl⟩
  · split
    · exact ⟨rfl, performAll_idx _ _, performAll_ch _ _⟩
    · exact ⟨rfl, rfl, rfl⟩

/-- `decode_byte` gives equal decoder registers from equal ones (R62). -/
theorem SameRegisters.decodeByte {s t : State} (h : SameRegisters s t) (b : Byte) :
    SameRegisters (decodeByte s b) (decodeByte t b) := by
  rcases hph : t.phase with _ | _
  · have hph' : s.phase = .seekIndex := h.phase.trans hph
    rcases hb : isIndexByte b with _ | _
    · rwa [decodeByte_junk hph' hb, decodeByte_junk hph hb]
    · rw [decodeByte_index hph' hb, decodeByte_index hph hb]
      exact ⟨rfl, rfl, rfl⟩
  · obtain ⟨hp, hi, hc⟩ := decodeByte_value_registers b (h.phase.trans hph)
    obtain ⟨hp', hi', hc'⟩ := decodeByte_value_registers b hph
    exact ⟨hp.trans hp'.symm, hi.trans (h.idx.trans hi'.symm), hc.trans (h.ch.trans hc'.symm)⟩

/-- Any input gives equal decoder registers from equal ones (R62). -/
theorem SameRegisters.consume {s t : State} (h : SameRegisters s t) (bs : List Byte) :
    SameRegisters (consume s bs) (consume t bs) := by
  induction bs generalizing s t with
  | nil => exact h
  | cons b bs ih => exact ih (h.decodeByte b)

/-- Settles O51: each byte gives equal decoder registers from equal ones. -/
theorem decodingIgnoresTheBuffer : Obligations.DecodingIgnoresTheBuffer := by
  intro s t bs hp hi hc
  obtain ⟨hp', hi', hc'⟩ := SameRegisters.consume ⟨hp, hi, hc⟩ bs
  exact ⟨hp', hi', hc'⟩

end Sys2Proof.Machine
end

section
/-! SUPPORT. The encoding of the host command protocol (30_encoding.md): decoder and encoder against each
other, the opcode table, the pseudo-commands, and the bytes of a frame place by place. -/

namespace Sys2Proof

/-! ### Decode and encode agree (R80 to R84) -/

/-- The index byte of a pixel and a selector, and the byte after it, are the command they make up. -/
theorem decode_indexByte (p : BitVec 5) (c : BitVec 2) (v : Byte) (rest : List Byte) :
    decode (indexByte p c :: v :: rest) = .unit (commandOf p c v) rest := by
  rw [decode_of_index _ v rest (isIndexByte_indexByte p c), pixelField_indexByte, channelField_indexByte]

/-- An index byte with nothing after it is turned away (R204). -/
theorem decode_of_index_alone {b : Byte} (h : isIndexByte b = true) : decode [b] = .rejected .noValueByte := by
  simp [decode, h]

/-- A junk unit is well formed when its byte has the marker clear (R87). -/
theorem junk_wf_iff (b : Byte) : (Instr.junk b).wf = true ↔ isIndexByte b = false := by
  simp [Instr.wf, isIndexByte]

/-- Settles O6: the index byte of a command gives its fields back, and a well-formed junk byte has the
marker clear. -/
theorem decodeOfEncode : Obligations.DecodeOfEncode := by
  intro i rest h
  cases i with
  | setr p v => exact decode_indexByte p redSelector v rest
  | setg p v => exact decode_indexByte p greenSelector v rest
  | setb p v => exact decode_indexByte p blueSelector v rest
  | skip p v => exact decode_indexByte p reservedSelector v rest
  | junk b => exact decode_of_not_index b rest ((junk_wf_iff b).1 h)

/-- Settles O7: the bytes read are a junk byte or an index byte and a value byte, and an index byte is the
one its own fields make up. -/
theorem encodeOfDecode : Obligations.EncodeOfDecode := by
  intro bytes i rest h
  obtain ⟨b, rfl, hb, rfl⟩ | ⟨b, v, rfl, hb, rfl⟩ := decode_unit_cases h
  · exact ⟨(junk_wf_iff b).2 hb, rfl⟩
  · refine ⟨commandOf_wf _ _ v, ?_⟩
    rw [encode_commandOf, indexByte_of_fields b hb]
    rfl

/-- Settles O8: the four ways a stream can begin, by the marker bit of its first byte. -/
theorem markerBitTellsUnitLength : Obligations.MarkerBitTellsUnitLength :=
  ⟨decode_nil, fun _ hb => decode_of_index_alone hb, fun b v rest hb => ⟨_, decode_of_index b v rest hb⟩,
    decode_of_not_index⟩

/-- Settles O9: the seven streams are closed, so the decoder is run on them. -/
theorem writtenOutBytesDecode : Obligations.WrittenOutBytesDecode :=
  ⟨rfl, rfl, rfl, rfl, rfl, rfl, rfl⟩

/-! ### Index bytes (R81, R83, R94) -/

/-- The pixel field is the byte shifted right by two, modulo 32 (R83). -/
theorem pixelField_toNat (b : Byte) : (pixelField b).toNat = (b.toNat >>> 2) % 2 ^ 5 :=
  BitVec.extractLsb'_toNat 2 5 b

/-- The channel field is the byte modulo 4 (R83). -/
theorem channelField_toNat (b : Byte) : (channelField b).toNat = b.toNat % 2 ^ 2 :=
  BitVec.extractLsb'_toNat 0 2 b

/-- Settles O4: the masks 0x1F and 0x03 are the reductions modulo 32 and 4. -/
theorem indexByteFieldExtraction : Obligations.IndexByteFieldExtraction := by
  intro b _
  rw [pixelField_toNat, channelField_toNat, BitVec.toNat_and, BitVec.toNat_and, BitVec.toNat_ushiftRight]
  exact ⟨(Nat.and_two_pow_sub_one_eq_mod _ 5).symm, (Nat.and_two_pow_sub_one_eq_mod _ 2).symm⟩

/-- A byte has the marker set and these fields exactly when it is the index byte they make up (R94). -/
theorem fields_iff_eq_indexByte (b : Byte) (p : BitVec 5) (c : BitVec 2) :
    (isIndexByte b = true ∧ pixelField b = p ∧ channelField b = c) ↔ b = indexByte p c := by
  constructor
  · rintro ⟨hb, rfl, rfl⟩
    exact (indexByte_of_fields b hb).symm
  · rintro rfl
    exact ⟨isIndexByte_indexByte p c, pixelField_indexByte p c, channelField_indexByte p c⟩

/-- Settles O5: the rule's expression is `indexByte`, and its four examples are closed. -/
theorem indexByteOfPixelAndChannel : Obligations.IndexByteOfPixelAndChannel :=
  ⟨fields_iff_eq_indexByte, rfl, rfl, rfl, rfl⟩

/-! ### Pseudo-commands (R87) -/

/-- Red is selector 0, so its index byte is the marker and the pixel index alone. -/
theorem indexByte_red (p : BitVec 5) : indexByte p redSelector = 0x80#8 ||| (p.setWidth 8 <<< 2) := by
  simp [indexByte, redSelector]

/-- Settles O10: each line is its expansion's units, and their bytes stand one after the other. -/
theorem pseudoCommandBytes : Obligations.PseudoCommandBytes := by
  refine ⟨fun p r g b => ?_, fun p v => ⟨rfl, rfl, rfl⟩, fun v => rfl⟩
  calc assemble (asmPixel p r g b)
    _ = [indexByte p redSelector, r, indexByte p greenSelector, g, indexByte p blueSelector, b] := rfl
    _ = _ := by rw [indexByte_red]; rfl

/-! ### The opcode table (R84) -/

/-- A 16-bit row that looks at the marker and the selector of the index byte. -/
def commandRow (name : String) (c : BitVec 2) : OpcodeRow :=
  ⟨name, 16, 0x83#8 ++ 0#8, indexByte 0#5 c ++ 0#8⟩

/-- The 8-bit row that looks at the marker alone. -/
def junkRow : OpcodeRow := ⟨"JUNK", 8, 0x80, 0x00⟩

/-- The table is one command row a selector and the junk row. -/
theorem opcodeRows_eq : opcodeRows =
    [commandRow "SETR" redSelector, commandRow "SETG" greenSelector, commandRow "SETB" blueSelector,
      commandRow "SKIP" reservedSelector, junkRow] := rfl

/-- Under the mask of a command row a byte reads as the pattern of a selector exactly when it has the marker
and that selector. -/
theorem and_commandMask_eq (b : Byte) (c : BitVec 2) :
    (b &&& 0x83#8 = indexByte 0#5 c) ↔ (isIndexByte b = true ∧ channelField b = c) := by
  revert b c; decide

/-- A command row holds of the index bytes with its selector, whatever the value byte. -/
theorem commandRow_covers (name : String) (c : BitVec 2) (b v : Byte) :
    (commandRow name c).covers b v = (isIndexByte b && channelField b == c) := by
  have hcovers : (commandRow name c).covers b v =
      ((b ++ v) &&& (0x83#8 ++ 0#8) == indexByte 0#5 c ++ 0#8) := rfl
  rw [hcovers, BitVec.and_append, BitVec.and_zero, Bool.eq_iff_iff, beq_iff_eq, BitVec.append_left_inj,
    and_commandMask_eq, Bool.and_eq_true, beq_iff_eq]

/-- The junk row holds of the bytes with the marker clear. -/
theorem junkRow_covers (b v : Byte) : junkRow.covers b v = !isIndexByte b := by
  have hmask : ∀ b : Byte, (b.setWidth 16 &&& 0x80#16 == 0#16) = !isIndexByte b := by decide
  exact hmask b

/-- The rows that hold of a junk byte: the junk row. -/
theorem rows_of_not_index {b : Byte} (v : Byte) (h : isIndexByte b = false) :
    (opcodeRows.filter fun r => r.covers b v).map OpcodeRow.mnemonic = [(Instr.junk b).mnemonic] := by
  simp only [opcodeRows_eq, List.filter_cons, commandRow_covers, junkRow_covers, h]
  rfl

/-- The rows that hold of an index byte: the command row of its selector. -/
theorem rows_of_index {b : Byte} (v : Byte) (h : isIndexByte b = true) :
    (opcodeRows.filter fun r => r.covers b v).map OpcodeRow.mnemonic =
      [(commandOf (pixelField b) (channelField b) v).mnemonic] := by
  simp only [opcodeRows_eq, List.filter_cons, commandRow_covers, junkRow_covers, h]
  rcases selector_cases (channelField b) with hc | hc | hc | hc <;> rw [hc] <;> rfl

/-- Settles O3: by the marker bit, the unit read and the rows that hold are those of a junk byte or of an
index byte. -/
theorem exactlyOneRowCoversEveryByte : Obligations.ExactlyOneRowCoversEveryByte := by
  intro b v rest
  cases hb : isIndexByte b with
  | false => exact ⟨_, _, decode_of_not_index b _ hb, rows_of_not_index v hb⟩
  | true => exact ⟨_, _, decode_of_index b v rest hb, rows_of_index v hb⟩

end Sys2Proof

namespace Sys2Proof.Machine

/-! ### The bytes of a frame (R88 to R90) -/

/-- Byte `k` of pixel `p` of strip `s` is its green, blue or red cell, marked (R90). -/
theorem frameBytes_getElem?_cell (fb : FrameBuffer) {s p k : Nat} (hs : s < fb.length) (hp : p < 32)
    (hk : k < 3) : (frameBytes fb)[3 * (32 * s + p) + k]? =
      (fbRead fb ⟨s, p, wireChannel k⟩).map (· ||| 0x80#8) := by
  rw [frameBytes_getElem?_pixel fb (by omega), show (3 * (32 * s + p) + k) / 96 = s by omega,
    show (3 * (32 * s + p) + k) % 96 / 3 = p by omega, show (3 * (32 * s + p) + k) % 3 = k by omega]

/-- Settles O33: the length, the places of the pixel data and the places of the latch bytes. -/
theorem frameLayout : Obligations.FrameLayout := fun fb =>
  ⟨frameBytes_length fb,
    fun _ hs _ hp => ⟨frameBytes_getElem?_cell fb hs hp (k := 0) (by decide),
      frameBytes_getElem?_cell fb hs hp (k := 1) (by decide),
      frameBytes_getElem?_cell fb hs hp (k := 2) (by decide)⟩,
    fun _ hj => frameBytes_getElem?_latch fb (by omega) (by omega)⟩

/-- The first 96 bytes a strip of a frame are the pixel data of its strips (R90). -/
theorem take_frameBytes (fb : FrameBuffer) : (frameBytes fb).take (96 * fb.length) =
    fb.flatMap fun st => st.toList.flatMap pixelWireBytes :=
  List.take_left' (length_flatMap_block stripWireBytes_length fb)

/-- The bytes after them are one latch byte a strip (R90). -/
theorem drop_frameBytes (fb : FrameBuffer) :
    (frameBytes fb).drop (96 * fb.length) = List.replicate fb.length latchByte :=
  List.drop_left' (length_flatMap_block stripWireBytes_length fb)

/-- A pixel data byte has bit 7 set, whatever its cell holds (R88). -/
@[simp] theorem pixelDataByte_getLsbD_seven (cell : Byte) : (pixelDataByte cell).getLsbD 7 = true := by
  simp [pixelDataByte]

/-- The three bytes of a pixel are marked (R88). -/
theorem getLsbD_seven_of_mem_pixelWireBytes {col : Color} {w : Byte} (h : w ∈ pixelWireBytes col) :
    w.getLsbD 7 = true := by
  simp only [pixelWireBytes, List.mem_cons, List.not_mem_nil, or_false] at h
  rcases h with rfl | rfl | rfl <;> exact pixelDataByte_getLsbD_seven _

/-- Settles O34: the pixel data is marked byte by byte, and what follows it is latch bytes. -/
theorem onlyLatchBytesAreUnmarked : Obligations.OnlyLatchBytesAreUnmarked := by
  intro fb
  rw [take_frameBytes, drop_frameBytes]
  constructor
  · intro w hw
    obtain ⟨st, -, hst⟩ := List.mem_flatMap.1 hw
    obtain ⟨col, -, hcol⟩ := List.mem_flatMap.1 hst
    exact getLsbD_seven_of_mem_pixelWireBytes hcol
  · intro w hw
    exact List.eq_of_mem_replicate hw

end Sys2Proof.Machine
end

section
/-! SUPPORT. What sending bytes leaves on the two lines, how a send runs to its end, and that every sequence
the core sends ends in a latch byte, with the statements of 40_signal_driver.md they settle. -/

namespace Sys2Proof.Machine

/-! ### The operations of one byte -/

/-- The list `Ops(v)` determines `v`: bit `i` is the level of its operation 3 x (7 - `i`) (R112). -/
theorem emitOps_injective : Function.Injective emitOps := by
  intro v w h
  refine BitVec.eq_of_getLsbD_eq fun i hi => ?_
  have hop : (emitOps v)[3 * (7 - i)]? = (emitOps w)[3 * (7 - i)]? := by rw [h]
  rw [emitOps_getElem? v (by omega), emitOps_getElem? w (by omega),
    show 7 - 3 * (7 - i) / 3 = i by omega, Nat.mul_mod_right] at hop
  simpa [bitPhaseOp] using hop

/-- Settles O31: operation 3j + `ph` of a byte is operation `ph` of the bit-period of bit 7 - j. -/
theorem emittedByteClosedForm : Obligations.EmittedByteClosedForm := by
  refine ⟨fun v => ⟨emitOps_length v, fun j hj => ?_⟩, fun _ _ h => emitOps_injective h⟩
  have hop : ∀ ph < 3, (emitOps v)[3 * j + ph]? = some (bitPhaseOp (v.getLsbD (7 - j)) ph) := by
    intro ph hph
    rw [emitOps_getElem? v (by omega), show (3 * j + ph) / 3 = j by omega,
      show (3 * j + ph) % 3 = ph by omega]
  exact ⟨hop 0 (by decide), hop 1 (by decide), hop 2 (by decide)⟩

/-! ### What sending leaves -/

/-- `s` after bit-periods whose operations are `ops`: `CLOCK` is low, `DATA` at the level `l` of the last
bit, and the trace has grown by `ops` (R113). -/
def State.sent (ops : List LineOp) (l : Level) (s : State) : State :=
  { s with trace := s.trace ++ ops, data := l, clock := .low }

/-- Of two sends in a row the second one's levels stay. -/
theorem State.sent_sent (ops ops' : List LineOp) (l l' : Level) (s : State) :
    (s.sent ops l).sent ops' l' = s.sent (ops ++ ops') l' := by
  simp [State.sent]

/-- A bit-period sends its three operations (R111). -/
theorem bitPeriod_eq_sent (b : Bool) (s : State) :
    bitPeriod b s = s.sent (bitPeriodOps b) (Level.ofBit b) := by
  simp [bitPeriod, gpioSet, State.sent, bitPeriodOps, Level.ofBit]

/-- Sends in order append their operations in order, and the last one's levels stay. -/
theorem foldl_sent {α : Type} {f : State → α → State} {ops : α → List LineOp} {level : α → Level}
    (hf : ∀ s x, f s x = s.sent (ops x) (level x)) (xs : List α) (x : α) (s : State) :
    (xs ++ [x]).foldl f s = s.sent ((xs ++ [x]).flatMap ops) (level x) := by
  induction xs generalizing s with
  | nil => simp [hf]
  | cons y xs ih => rw [List.cons_append, List.foldl_cons, ih, hf, State.sent_sent, List.flatMap_cons]

/-- `emit_byte(v)` sends `Ops(v)` and ends at its last bit, bit 0 (R110, R113). -/
theorem emitByte_eq_sent (v : Byte) (s : State) :
    emitByte v s = s.sent (emitOps v) (Level.ofBit (v.getLsbD 0)) :=
  foldl_sent (fun t i => bitPeriod_eq_sent (v.getLsbD i) t) [7, 6, 5, 4, 3, 2, 1] 0 s

/-- Settles O32: a byte is eight bit-periods, of which the last one's levels stay. -/
theorem emitByteEffect : Obligations.EmitByteEffect := emitByte_eq_sent

/-- Performing the operations of some bytes sends them, and ends at bit 0 of the last one (R113, R137). -/
theorem performAll_flatMap_emitOps_concat (bs : List Byte) (b : Byte) (s : State) :
    performAll ((bs ++ [b]).flatMap emitOps) s =
      s.sent ((bs ++ [b]).flatMap emitOps) (Level.ofBit (b.getLsbD 0)) := by
  rw [performAll, List.foldl_flatMap]
  exact foldl_sent (fun t v => emitByte_eq_sent v t) bs b s

/-! ### Every sequence ends in a latch byte -/

/-- One or more latch bytes end in one. -/
theorem latchByte_suffix_replicate {n : Nat} (h : 0 < n) : [latchByte] <:+ List.replicate n latchByte :=
  List.suffix_replicate_iff.2 ⟨h, rfl⟩

/-- A frame of one or more strips ends in a latch byte (R90, R133). -/
theorem latchByte_suffix_frameBytes {fb : FrameBuffer} (h : 0 < fb.length) :
    [latchByte] <:+ frameBytes fb :=
  List.suffix_append_of_suffix (latchByte_suffix_replicate h)

theorem emitOps_latchByte_suffix_frameOps {fb : FrameBuffer} (h : 0 < fb.length) :
    emitOps latchByte <:+ frameOps fb :=
  (latchByte_suffix_frameBytes h).flatMap emitOps

theorem emitOps_latchByte_suffix_initOps {n : Nat} (h : 0 < n) : emitOps latchByte <:+ initOps n :=
  List.suffix_append_of_suffix ((latchByte_suffix_replicate h).flatMap emitOps)

/-- Whatever whole sequences have been sent, the last byte sent is a latch byte (R89, R241). -/
theorem InitThenFrames.emitOps_latchByte_suffix {ops : List LineOp} (h : InitThenFrames ops) :
    emitOps latchByte <:+ ops := by
  obtain ⟨sent, hsent, rfl⟩ := h
  rcases List.eq_nil_or_concat sent with rfl | ⟨earlier, last, rfl⟩
  · simpa using emitOps_latchByte_suffix_initOps Config.nStrips_pos
  · have hlast : 0 < last.length := by
      rw [hsent last (by simp)]
      exact Config.nStrips_pos
    rw [List.concat_eq_append, List.flatMap_append, List.flatMap_singleton, ← List.append_assoc]
    exact List.suffix_append_of_suffix (emitOps_latchByte_suffix_frameOps hlast)

/-- Both lines are configured by the initialisation (R241). -/
theorem InitThenFrames.configuredIn_eq {ops : List LineOp} (h : InitThenFrames ops) (l : Line) :
    configuredIn l ops = .output := by
  obtain ⟨sent, -, rfl⟩ := h
  refine if_pos (List.mem_append_left _ ?_)
  cases l <;> simp [initOps]

/-- A trace that ends in a latch byte leaves either line low (R113). -/
theorem lastLevel_append_emitOps_latchByte (l : Line) (ops : List LineOp) :
    lastLevel l (ops ++ emitOps latchByte) = .low := by
  rw [lastLevel, List.foldl_append]
  cases l <;> rfl

/-- Settles O57: about to read, the core has sent whole sequences, the last byte of which was a latch byte. -/
theorem linesAreLowBetweenBytes : Obligations.LinesAreLowBetweenBytes := by
  rintro s ⟨hd, hc, hdd, hdc⟩ - hw hn
  have hsent : InitThenFrames s.trace := (traceIsWholeFrames_of_readsNext hn).1 hw
  obtain ⟨ops, hops⟩ := hsent.emitOps_latchByte_suffix
  have hlow : ∀ l, lastLevel l s.trace = .low := fun l =>
    hops ▸ lastLevel_append_emitOps_latchByte l ops
  exact ⟨hd.trans (hlow _), hc.trans (hlow _), hdd.trans (hsent.configuredIn_eq _),
    hdc.trans (hsent.configuredIn_eq _)⟩

/-! ### A send from its value byte to its end -/

/-- A write to a cell that exists stores the value there and nowhere else (R151). -/
theorem storesCell_fbWrite {fb : FrameBuffer} {a : CellAddr} (v : Byte) (h : namesCell fb a = true) :
    StoresCell fb (fbWrite fb a v).1 a v :=
  ⟨by rw [fbRead_fbWrite, if_pos ⟨rfl, h⟩],
    fun _ hne => by rw [fbRead_fbWrite, if_neg fun hc => hne hc.1],
    fbWrite_length fb a v⟩

/-- Performing a frame of one or more strips leaves both lines low (R113, R137). -/
theorem performAll_frameOps {fb : FrameBuffer} (h : 0 < fb.length) (s : State) :
    performAll (frameOps fb) s = s.sent (frameOps fb) .low := by
  obtain ⟨bs, hbs⟩ := latchByte_suffix_frameBytes h
  rw [frameOps, ← hbs]
  exact performAll_flatMap_emitOps_concat bs latchByte s

/-- The step that reads the value byte of `SETB 31` writes the cell and commits a frame of the buffer so
reached (R64, R173, R174). -/
theorem step_of_flush_value {s : State} {v : Byte} {rest : List Byte} (h : s.readsNext)
    (hph : s.phase = .seekValue) (hidx : s.idx = 31#5) (hch : s.ch = 2#2) (hr : s.rx = v :: rest)
    (hfb : 0 < s.fb.length) :
    step s = .next { s with
      phase := .seekIndex, rx := rest, fb := (fbWrite s.fb ⟨0, 31, 2⟩ v).1
      pending := frameOps (fbWrite s.fb ⟨0, 31, 2⟩ v).1 } := by
  obtain ⟨hst, hp⟩ := h
  have hcell : namesCell s.fb (directCell 31#5 2#2) = true :=
    (namesCell_iff _ _).2 ⟨hfb, by decide, by decide⟩
  rw [step_of_value ⟨hst, hp⟩ hph hr, exec_commandOf, hidx, hch, if_neg (by decide), withRx_fb, hcell]
  simp [completionTrigger_eq, endUnit, storeCell, latchIndex, withRx, hp, triggerPixel, blueSelector,
    directCell]

/-- `k` steps after a commit the first `k` operations have been performed and the others are pending (R39). -/
theorem runSteps_take {s : State} (h : s.stage = .running) {k : Nat} (hk : k ≤ s.pending.length) :
    runSteps k s = .next (performAll (s.pending.take k) { s with pending := s.pending.drop k }) := by
  have hrun := runSteps_drain h (List.take_append_drop k s.pending).symm
  rwa [List.length_take_of_le hk] at hrun

/-- Settles O39: the value byte's step commits the frame, and the steps after it perform it, one operation
each. -/
theorem sendRunsToItsLastLatchByte : Obligations.SendRunsToItsLastLatchByte := by
  intro s v rest h hph hidx hch hr hfb
  have hcommit := step_of_flush_value h hph hidx hch hr hfb
  obtain ⟨hst, hp⟩ := h
  set fb' := (fbWrite s.fb ⟨0, 31, 2⟩ v).1
  have hlen : fb'.length = s.fb.length := fbWrite_length _ _ _
  have hrun : ∀ k ≤ 2328 * s.fb.length, runSteps (1 + k) s =
      .next (performAll ((frameOps fb').take k) { s with
        phase := .seekIndex, rx := rest, fb := fb', pending := (frameOps fb').drop k }) := by
    intro k hk
    rw [Nat.add_comm, runSteps_succ hcommit]
    refine runSteps_take ?_ ?_
    · exact hst
    · rwa [frameOps_length, hlen]
  refine ⟨fb', storesCell_fbWrite v ((namesCell_iff _ _).2 ⟨hfb, by decide, by decide⟩),
    fun k hk => ⟨_, hrun k hk, by simp⟩, ?_⟩
  have hall : (frameOps fb').length ≤ 2328 * s.fb.length := by rw [frameOps_length, hlen]
  rw [hrun _ le_rfl, List.take_of_length_le hall, List.drop_of_length_le hall,
    performAll_frameOps (hlen ▸ hfb), ← hp]
  rfl

end Sys2Proof.Machine
end

section
/-! SUPPORT. How many line operations of a kind a send has, and what of a cell reaches the wire, with the
statements of 41_frame_encoder.md they settle. -/

namespace Sys2Proof.Machine

/-! ### The size of a send (R136) -/

/-- Blocks that each hold `n` elements of a kind hold `n` for each block together. -/
theorem countP_flatMap_block {α β : Type} {f : α → List β} {p : β → Bool} {n : Nat}
    (hf : ∀ x, (f x).countP p = n) (xs : List α) : (xs.flatMap f).countP p = n * xs.length := by
  induction xs with
  | nil => rfl
  | cons x xs ih =>
    rw [List.flatMap_cons, List.countP_append, hf, ih, List.length_cons, Nat.mul_succ, Nat.add_comm]

/-- A kind of operation that every bit-period has once occurs eight times in a byte (R111). -/
theorem countP_emitOps {p : LineOp → Bool} (hp : ∀ b, (bitPeriodOps b).countP p = 1) (v : Byte) :
    (emitOps v).countP p = 8 :=
  countP_flatMap_block (fun i => hp (v.getLsbD i)) [7, 6, 5, 4, 3, 2, 1, 0]

/-- It occurs once for each of the 776 bit-periods a strip in a send (R136). -/
theorem countP_frameOps {p : LineOp → Bool} (hp : ∀ b, (bitPeriodOps b).countP p = 1) (fb : FrameBuffer) :
    (frameOps fb).countP p = 776 * fb.length := by
  rw [frameOps, countP_flatMap_block (countP_emitOps hp), frameBytes_length, ← Nat.mul_assoc]

/-- Settles O36: a bit-period has each of the three kinds once. -/
theorem sizeOfASend : Obligations.SizeOfASend := fun fb =>
  ⟨frameBytes_length fb, frameOps_length fb, countP_frameOps (by decide) fb,
    countP_frameOps (by decide) fb, countP_frameOps (by decide) fb⟩

/-! ### Bit 7 of a cell never reaches the wire (R132, R137) -/

/-- The wire byte of a cell is that of its bits 6 to 0 (R132). -/
theorem or_marker_eq_masked_or_marker (cell : Byte) : cell ||| 0x80#8 = (cell &&& 0x7F#8) ||| 0x80#8 := by
  revert cell; decide

/-- Readings that agree in bits 6 to 0 give the same wire byte (R132). -/
theorem map_or_marker_congr {x y : Option Byte} (h : x.map (· &&& 0x7F#8) = y.map (· &&& 0x7F#8)) :
    x.map (· ||| 0x80#8) = y.map (· ||| 0x80#8) := by
  have hmask : ∀ z : Option Byte, z.map (· ||| 0x80#8) = (z.map (· &&& 0x7F#8)).map (· ||| 0x80#8) := by
    intro z
    rw [Option.map_map]
    exact congrArg (Option.map · z) (funext or_marker_eq_masked_or_marker)
  rw [hmask x, h, ← hmask y]

/-- The bytes of a frame depend on bits 6 to 0 of the cells and on the number of strips alone: a pixel data
byte reads one cell, and a latch byte none (R137). -/
theorem frameBytes_congr {fb fb' : FrameBuffer} (hlen : fb.length = fb'.length)
    (hcells : ∀ a, (fbRead fb a).map (· &&& 0x7F#8) = (fbRead fb' a).map (· &&& 0x7F#8)) :
    frameBytes fb = frameBytes fb' := by
  refine List.ext_getElem? fun i => ?_
  rcases Nat.lt_or_ge i (96 * fb.length) with hpixel | hlatch
  · rw [frameBytes_getElem?_pixel fb hpixel, frameBytes_getElem?_pixel fb' (hlen ▸ hpixel)]
    exact map_or_marker_congr (hcells _)
  rcases Nat.lt_or_ge i (97 * fb.length) with hin | hout
  · rw [frameBytes_getElem?_latch fb hlatch hin,
      frameBytes_getElem?_latch fb' (hlen ▸ hlatch) (hlen ▸ hin)]
  · rw [List.getElem?_eq_none (frameBytes_length fb ▸ hout),
      List.getElem?_eq_none (frameBytes_length fb' ▸ hlen ▸ hout)]

/-- Settles O35: equal frame bytes give equal operations. -/
theorem frameIgnoresCellBitSeven : Obligations.FrameIgnoresCellBitSeven := fun _ _ hlen hcells =>
  congrArg (List.flatMap emitOps) (frameBytes_congr hlen hcells)

end Sys2Proof.Machine
end


section
/-! SUPPORT. The guarded write and the bulk read of the Pixel Frame Buffer, with the statements of
42_frame_buffer.md they settle. -/

namespace Sys2Proof.Machine

/-! ### The guarded write (R151) -/

/-- Settles O27: the guard holds exactly for the triples that name a cell, where the write stores; otherwise
it drops. -/
theorem guardedWriteStoresOneCell : Obligations.GuardedWriteStoresOneCell := by
  intro fb a v
  have hguard : namesCell fb a = true ↔ a.strip < fb.length ∧ a.pixel ≤ 31 ∧ a.channel ≤ 2 := by
    rw [namesCell_iff, Nat.lt_succ_iff, Nat.lt_succ_iff]
  rw [← hguard]
  exact ⟨fun h => ⟨(fbWrite_happens fb a v).trans h, storesCell_fbWrite v h⟩,
    fun h => fbWrite_dropped fb a v (Bool.eq_false_of_not_eq_true h)⟩

/-! ### The bulk read (R152) -/

/-- A bulk read gives one colour for each pixel of the strip. -/
theorem length_of_fbReadStrip {fb : FrameBuffer} {s : Nat} {cols : List Color}
    (h : fbReadStrip fb s = some cols) : cols.length = 32 := by
  obtain ⟨st, -, rfl⟩ := Option.map_eq_some_iff.1 h
  exact st.length_toList

/-- A single-cell read takes the named cell of the colour that a bulk read has at the pixel. -/
theorem fbRead_of_fbReadStrip {fb : FrameBuffer} {s p : Nat} {cols : List Color} {col : Color}
    (h : fbReadStrip fb s = some cols) (hcol : cols[p]? = some col) (c : Nat) :
    fbRead fb ⟨s, p, c⟩ = col.cell? c := by
  obtain ⟨st, hst, rfl⟩ := Option.map_eq_some_iff.1 h
  rw [Vector.getElem?_toList] at hcol
  simp only [fbRead, hst, hcol]

/-- Settles O29: the colour at a pixel answers each of the three reads there with its red, green or blue
cell. -/
theorem bulkReadIsNinetySixReads : Obligations.BulkReadIsNinetySixReads := by
  intro fb s hs
  have hread : fbReadStrip fb s = some fb[s].toList := by
    rw [fbReadStrip, List.getElem?_eq_getElem hs, Option.map_some]
  have hlen := length_of_fbReadStrip hread
  refine ⟨_, hread, hlen, fun p hp => ?_⟩
  have hcol := List.getElem?_eq_getElem (hlen.symm ▸ hp : p < fb[s].toList.length)
  have hcell := fbRead_of_fbReadStrip hread hcol
  exact ⟨_, hcol, hcell 0, hcell 1, hcell 2⟩

end Sys2Proof.Machine
end

section
/-! SUPPORT. The command decoder (43_command_decoder.md): how one byte and the two bytes of a command are
handled, and what each of the five units does, with the statements they settle. -/

namespace Sys2Proof.Machine

/-! ### One byte a step (R170, R180) -/

/-- Settles O12: the three branches are the step's laws for an index byte, a junk byte and a value byte. -/
theorem oneStepHandlesOneByte : Obligations.OneStepHandlesOneByte := fun _ _ _ h hr =>
  ⟨fun hph hb => step_of_index ⟨h, hph⟩ hr hb,
    fun hph hb => step_of_junk ⟨h, hph⟩ hr hb,
    fun hph => step_of_value h hph hr⟩

/-- The two steps of a command: the first latches the index byte, and the second runs the command, whose
meaning latches the same fields itself (R170). -/
theorem steps_of_command {s : State} {p : BitVec 5} {c : BitVec 2} {v : Byte} {rest : List Byte}
    (h : s.atBoundary) (hr : s.rx = encode (commandOf p c v) ++ rest) :
    step s = .next (latchIndex p c (withRx (v :: rest) s)) ∧
    step (latchIndex p c (withRx (v :: rest) s)) = exec (commandOf p c v) (withRx rest s) := by
  rw [encode_commandOf] at hr
  constructor
  · have hindex := step_of_index h hr (isIndexByte_indexByte p c)
    rwa [pixelField_indexByte, channelField_indexByte] at hindex
  · have hvalue : step (latchIndex p c (withRx (v :: rest) s)) =
        exec (commandOf p c v) (latchIndex p c (withRx rest s)) :=
      step_of_value h.1 rfl rfl
    rwa [exec_commandOf_latchIndex] at hvalue

/-- The condition that a state about to read meets is that of the byte it reads (R208). -/
theorem conditionMet_of_readsNext {s : State} {b : Byte} {rest : List Byte} (h : s.readsNext)
    (hr : s.rx = b :: rest) : conditionMet s = byteCondition s b := by
  obtain ⟨hst, hp⟩ := h
  simp only [conditionMet, hst, hp, hr]

/-- A value byte read while the reserved selector is latched meets `ReservedChannel` (R202). -/
theorem byteCondition_reservedChannel {s : State} (b : Byte) (hph : s.phase = .seekValue)
    (hch : s.ch = reservedSelector) : byteCondition s b = some .reservedChannel := by
  simp only [byteCondition, hph, if_pos hch]

/-! ### The cell of a command (R171 to R173, R178) -/

/-- With a selector of a colour the direct address names a cell exactly when there is a strip (R178). -/
theorem namesCell_directCell_iff (fb : FrameBuffer) (p : BitVec 5) {c : BitVec 2}
    (hc : c ≠ reservedSelector) : namesCell fb (directCell p c) = true ↔ 0 < fb.length := by
  have hchannel : c.toNat < 3 := by revert c; decide
  rw [namesCell_iff]
  exact ⟨fun h => h.1, fun h => ⟨h, p.isLt, hchannel⟩⟩

/-- With a selector of a colour the directly addressed write stores its cell (R151, R178). -/
theorem storesCell_directCell {fb : FrameBuffer} (h : 0 < fb.length) (p : BitVec 5) {c : BitVec 2}
    (hc : c ≠ reservedSelector) (v : Byte) :
    StoresCell fb (fbWrite fb (directCell p c) v).1 (directCell p c) v :=
  storesCell_fbWrite v ((namesCell_directCell_iff fb p hc).2 h)

/-- A frame carries a value just stored in strip 0, marked, in the place of its cell (R90, R132). -/
theorem StoresCell.frameBytes_getElem? {fb fb' : FrameBuffer} {p : BitVec 5} {k : Nat} {v : Byte}
    (hs : StoresCell fb fb' ⟨0, p.toNat, wireChannel k⟩ v) (h : 0 < fb.length) (hk : k < 3) :
    (frameBytes fb')[3 * p.toNat + k]? = some (v ||| 0x80#8) := by
  obtain ⟨hread, -, hlen⟩ := hs
  have hplace := frameBytes_getElem?_cell fb' (s := 0) (hlen ▸ h) p.isLt hk
  rwa [Nat.mul_zero, Nat.zero_add, hread, Option.map_some] at hplace

/-! ### SETR and SETG (R171, R172) -/

/-- Settles O14: the write is to a cell that exists, and a frame has it last of the pixel's three bytes. -/
theorem setrStoresRedCell : Obligations.SetrStoresRedCell := by
  intro p v
  refine ⟨by rw [encode, indexByte_red], fun s hfb => ?_, fun s rest h hr => ?_⟩
  · have hs := storesCell_directCell hfb p (c := redSelector) (by decide) v
    exact ⟨_, rfl, hs, StoresCell.frameBytes_getElem? (k := 2) hs hfb (by decide)⟩
  · obtain ⟨hindex, hvalue⟩ := steps_of_command (c := redSelector) h hr
    exact ⟨_, hindex, rfl, hvalue⟩

/-- Settles O15: the write is to a cell that exists, and a frame has it first of the pixel's three bytes. -/
theorem setgStoresGreenCell : Obligations.SetgStoresGreenCell := by
  intro p v
  refine ⟨rfl, fun s hfb => ?_, fun s rest h hr => ?_⟩
  · have hs := storesCell_directCell hfb p (c := greenSelector) (by decide) v
    exact ⟨_, rfl, hs, StoresCell.frameBytes_getElem? (k := 0) hs hfb (by decide)⟩
  · obtain ⟨hindex, hvalue⟩ := steps_of_command (c := greenSelector) h hr
    exact ⟨_, hindex, rfl, hvalue⟩

/-! ### SETB and the send (R173, R174) -/

/-- With a strip, `SETB` stores the blue cell, and of pixel 31 it commits a frame of the buffer after the
write. -/
theorem exec_setb_of_strip {s : State} (h : 0 < s.fb.length) (p : BitVec 5) (v : Byte) :
    exec (.setb p v) s = .next { s with
      idx := p, ch := blueSelector, phase := .seekIndex
      fb := (fbWrite s.fb (directCell p blueSelector) v).1
      pending := s.pending ++
        if p = triggerPixel then frameOps (fbWrite s.fb (directCell p blueSelector) v).1 else [] } := by
  have hcell : namesCell s.fb (directCell p blueSelector) = true :=
    (namesCell_directCell_iff s.fb p (by decide)).2 h
  rw [exec, execSetb, fbWrite_happens, hcell, completionTrigger_eq]
  by_cases hp : p = triggerPixel
  · simp [hp, endUnit, storeCell, latchIndex]
  · simp [hp, endUnit, storeCell, latchIndex]

/-- As many steps as a pending frame has operations send it, and leave both lines low (R113, R137). -/
theorem runSteps_frame {t : State} (hst : t.stage = .running) (hfb : 0 < t.fb.length)
    (hp : t.pending = frameOps t.fb) :
    runSteps (2328 * t.fb.length) t = .next { t with
      pending := [], data := .low, clock := .low, trace := t.trace ++ frameOps t.fb } := by
  have hdrain := runSteps_pending hst
  rw [hp, frameOps_length, State.drained, hp, performAll_frameOps hfb] at hdrain
  exact hdrain

/-- Settles O16: the effect is `exec_setb_of_strip`; started with nothing pending it leaves nothing pending,
or the one frame that the next steps send. -/
theorem setbStoresBlueCellAndSends : Obligations.SetbStoresBlueCellAndSends := by
  intro p v
  refine ⟨rfl, fun s hfb => ?_, fun s t h hfb ht => ?_, fun s rest h hr => ?_⟩
  · have hs := storesCell_directCell hfb p (c := blueSelector) (by decide) v
    refine ⟨_, exec_setb_of_strip hfb p v, hs,
      StoresCell.frameBytes_getElem? (k := 1) hs hfb (by decide), ?_⟩
    rw [frameOps_length, fbWrite_length]
  · obtain ⟨hst, hp⟩ := h
    have hlen : t.fb.length = s.fb.length := exec_fb_length ht
    have hstage : t.stage = .running := (exec_stage ht).trans hst
    have htrace : t.trace = s.trace := exec_trace ht
    have hpending : t.pending = if p = triggerPixel then frameOps t.fb else [] := by
      rw [exec_setb_of_strip hfb] at ht
      cases ht
      simp [hp]
    constructor
    · intro hne
      exact ⟨⟨hstage, hpending.trans (if_neg hne)⟩, htrace⟩
    · intro heq
      rw [← hlen, ← htrace]
      exact runSteps_frame hstage (hlen ▸ hfb) (hpending.trans (if_pos heq))
  · obtain ⟨hindex, hvalue⟩ := steps_of_command (c := blueSelector) h hr
    exact ⟨_, hindex, rfl, hvalue⟩

/-- Every unit but a `SETB` of pixel 31 with a strip to write to leaves `PENDING` as it is (R174). -/
theorem exec_pending_of_no_send {i : Instr} {s t : State} (h : exec i s = .next t)
    (hi : ¬ ((∃ v, i = .setb 31#5 v) ∧ 0 < s.fb.length)) : t.pending = s.pending := by
  cases i with
  | setb p v =>
    cases h
    rw [endUnit_pending, completionTrigger_pending, fbWrite_happens, if_neg]
    · rfl
    · intro hsend
      obtain ⟨hp, hcell⟩ := Bool.and_eq_true_iff.1 hsend
      rw [beq_iff_eq.1 hp] at hi hcell
      exact hi ⟨⟨v, rfl⟩, (namesCell_directCell_iff s.fb _ (by decide)).1 hcell⟩
  | setr p v => cases h; rfl
  | setg p v => cases h; rfl
  | skip p v => cases h; rfl
  | junk b => cases h; rfl

/-- Settles O19: the effect of `SETB` gives the frame, and no other unit commits; a pending operation is
performed before any byte is read. -/
theorem sendStartsOnlyOnPixel31Blue : Obligations.SendStartsOnlyOnPixel31Blue := by
  refine ⟨fun i s => ?_, fun s hst hp => ?_⟩
  · obtain ⟨t, ht⟩ := exec_next i s
    refine ⟨t, ht, ?_, exec_pending_of_no_send ht⟩
    rintro ⟨⟨v, rfl⟩, hfb⟩
    rw [exec_setb_of_strip hfb] at ht
    cases ht
    exact congrArg (s.pending ++ ·) (if_pos rfl)
  · obtain ⟨op, ops, hops⟩ := List.exists_cons_of_ne_nil hp
    exact ⟨_, step_of_pending hst hops, performOp_rx _ _,
      by rw [performOp_pending, hops, List.tail_cons], performOp_fb _ _⟩

/-! ### SKIP (R175) -/

/-- Settles O17: the meaning latches and ends the unit; the value byte is read with the reserved selector
latched. -/
theorem skipConsumesBothBytesOnly : Obligations.SkipConsumesBothBytesOnly := by
  intro p v
  refine ⟨rfl, fun s => rfl, fun s rest h hr => ?_⟩
  obtain ⟨hindex, hvalue⟩ := steps_of_command (c := reservedSelector) h hr
  refine ⟨_, hindex, rfl, hvalue, ?_⟩
  have hreads : (latchIndex p reservedSelector (withRx (v :: rest) s)).readsNext := h.1
  rw [conditionMet_of_readsNext hreads rfl]
  exact byteCondition_reservedChannel v rfl rfl

/-! ### JUNK (R176) -/

/-- A list of junk bytes is discarded, one a step. -/
theorem runSteps_junk {s : State} {junk rest : List Byte} (h : s.atBoundary) (hr : s.rx = junk ++ rest)
    (hjunk : ∀ b ∈ junk, isIndexByte b = false) : runSteps junk.length s = .next (withRx rest s) := by
  induction junk generalizing s with
  | nil => rw [List.length_nil, runSteps_zero, withRx, ← show s.rx = rest from hr]
  | cons b junk ih =>
    obtain ⟨hb, hjunk⟩ := List.forall_mem_cons.1 hjunk
    rw [List.length_cons, runSteps_succ (step_of_junk h hr hb)]
    exact ih (s := withRx (junk ++ rest) s) h rfl hjunk

/-- Settles O18: one junk byte and then any number; in `SEEK_VALUE` the byte is a value byte. -/
theorem junkChangesNothing : Obligations.JunkChangesNothing := by
  refine ⟨fun b s => rfl, fun s b rest h hr hb => ⟨step_of_junk h hr hb, ?_⟩,
    fun s junk rest h hr hjunk => runSteps_junk h hr hjunk,
    fun s b rest h hph hr _ => step_of_value h hph hr⟩
  rw [conditionMet_of_readsNext h.1 hr, byteCondition_framingDesync]
  exact ⟨h.2, hb⟩

end Sys2Proof.Machine
end

section
/-! SUPPORT. The four conditions (60_exceptions.md): when each is met and what the step that meets it
leaves, with the statements they settle. -/

namespace Sys2Proof.Machine

/-! ### When a condition is met (R205, R208) -/

/-- With no byte available a core about to read meets `TransportStall` (R204). -/
theorem conditionMet_of_quiescent {s : State} (h : s.quiescent) :
    conditionMet s = some .transportStall := by
  obtain ⟨⟨hst, hp⟩, hr⟩ := h
  simp only [conditionMet, hst, hp, hr]

/-- Any other condition is that of a byte the core is about to read (R208, R210). -/
theorem conditionMet_eq_some_iff {s : State} {c : Condition} (hc : c ≠ .transportStall) :
    conditionMet s = some c ↔
      s.readsNext ∧ ∃ b rest, s.rx = b :: rest ∧ byteCondition s b = some c := by
  constructor
  · intro h
    unfold conditionMet at h
    split at h
    · exact absurd (Option.some.inj h).symm hc
    · next b rest hst hp hr => exact ⟨⟨hst, hp⟩, b, rest, hr, h⟩
    · cases h
  · rintro ⟨hn, b, rest, hr, hb⟩
    rw [conditionMet_of_readsNext hn hr, hb]

/-- The conditions of a value byte do not depend on the byte: `ReservedChannel` while `CH` = 3, otherwise
`OutOfRangeWrite` when the triple names no cell (R202, R203). -/
theorem byteCondition_eq_some_iff {s : State} {b : Byte} {c : Condition} (hc : c ≠ .framingDesync) :
    byteCondition s b = some c ↔ s.phase = .seekValue ∧
      (s.ch = reservedSelector ∧ c = .reservedChannel ∨
        s.ch ≠ reservedSelector ∧ namesCell s.fb (directCell s.idx s.ch) = false ∧
          c = .outOfRangeWrite) := by
  unfold byteCondition
  cases s.phase with
  | seekIndex => cases isIndexByte b <;> simp [hc.symm]
  | seekValue =>
    by_cases hch : s.ch = reservedSelector
    · simp [hch, eq_comm (b := c)]
    · cases namesCell s.fb (directCell s.idx s.ch) <;> simp [hch, eq_comm (b := c)]

/-- The cause of `ReservedChannel` in terms of the state (R202). -/
theorem conditionMet_eq_reservedChannel_iff (s : State) :
    conditionMet s = some .reservedChannel ↔
      s.readsNext ∧ s.phase = .seekValue ∧ s.ch = reservedSelector ∧ s.rx ≠ [] := by
  rw [conditionMet_eq_some_iff (by decide), List.ne_nil_iff_exists_cons]
  simp only [byteCondition_eq_some_iff, ne_eq, reduceCtorEq, not_false_eq_true, and_true, and_false,
    or_false]
  tauto

/-- The cause of `OutOfRangeWrite` in terms of the state (R203). -/
theorem conditionMet_eq_outOfRangeWrite_iff (s : State) :
    conditionMet s = some .outOfRangeWrite ↔
      s.readsNext ∧ s.phase = .seekValue ∧ s.ch ≠ reservedSelector ∧ s.rx ≠ [] ∧
        namesCell s.fb (directCell s.idx s.ch) = false := by
  rw [conditionMet_eq_some_iff (by decide), List.ne_nil_iff_exists_cons]
  simp only [byteCondition_eq_some_iff, ne_eq, reduceCtorEq, not_false_eq_true, and_true, and_false,
    false_or]
  tauto

/-! ### A command that names no cell (R170, R175, R203) -/

/-- The reserved selector names no cell (R85). -/
theorem namesCell_directCell_reserved (fb : FrameBuffer) (p : BitVec 5) :
    namesCell fb (directCell p reservedSelector) = false := by
  simp [namesCell, directCell, reservedSelector]

/-- A store whose triple names no cell leaves the state as it is (R151). -/
theorem storeCell_dropped {s : State} {a : CellAddr} (v : Byte) (h : namesCell s.fb a = false) :
    storeCell a v s = s := by
  rw [storeCell, fbWrite_dropped s.fb a v h]

/-- After a write that did not happen the trigger leaves the state as it is (R174). -/
theorem completionTrigger_false (p : BitVec 5) (s : State) : completionTrigger false p s = s := by
  simp [completionTrigger_eq]

/-- A command whose triple names no cell latches its fields and ends: nothing is written and no send is
started. -/
theorem exec_commandOf_dropped {s : State} {p : BitVec 5} {c : BitVec 2} (v : Byte)
    (h : namesCell s.fb (directCell p c) = false) :
    exec (commandOf p c v) s = .next (endUnit (latchIndex p c s)) := by
  rw [exec_commandOf, h, Bool.false_and, storeCell_dropped (s := latchIndex p c s) v h,
    completionTrigger_false, ite_self]

/-- The value byte of a command whose triple names no cell is consumed, and `PH` returns to `SEEK_INDEX`. -/
theorem step_of_dropped_value {s : State} (h : s.readsNext) (hph : s.phase = .seekValue) (hr : s.rx ≠ [])
    (hcell : namesCell s.fb (directCell s.idx s.ch) = false) :
    step s = .next { s with phase := .seekIndex, rx := s.rx.tail } := by
  obtain ⟨b, rest, hr⟩ := List.exists_cons_of_ne_nil hr
  rw [step_of_value h hph hr, exec_commandOf_dropped (s := withRx rest s) b hcell, hr]
  rfl

/-! ### OutOfRangeWrite (R203) -/

/-- Settles O20: a selector of a colour names a cell as soon as there is a strip; with none, no command
does. -/
theorem outOfRangeWriteUnreachableAndDropped : Obligations.OutOfRangeWriteUnreachableAndDropped := by
  refine ⟨fun s hfb h => ?_, fun p v s hfb => ?_⟩
  · obtain ⟨-, -, hch, -, hcell⟩ := (conditionMet_eq_outOfRangeWrite_iff s).1 h
    rw [(namesCell_directCell_iff s.fb s.idx hch).2 hfb] at hcell
    cases hcell
  · have hcell : ∀ a, namesCell s.fb a = false := fun a => by simp [namesCell, hfb]
    exact ⟨exec_commandOf_dropped (c := redSelector) v (hcell _),
      exec_commandOf_dropped (c := greenSelector) v (hcell _),
      exec_commandOf_dropped (c := blueSelector) v (hcell _)⟩

/-- Settles O58: the cause names no cell, so the command is dropped. -/
theorem outOfRangeWriteCauseAndDrop : Obligations.OutOfRangeWriteCauseAndDrop := by
  intro s
  refine ⟨conditionMet_eq_outOfRangeWrite_iff s, fun h => ?_⟩
  obtain ⟨hn, hph, -, hr, hcell⟩ := (conditionMet_eq_outOfRangeWrite_iff s).1 h
  exact step_of_dropped_value hn hph hr hcell

/-! ### FramingDesync (R201) -/

/-- Settles O21: the byte is a junk unit at a unit boundary, whose meaning changes nothing. -/
theorem framingDesyncDiscardsOneByte : Obligations.FramingDesyncDiscardsOneByte := by
  intro s
  have hcause : conditionMet s = some .framingDesync ↔
      s.atBoundary ∧ ∃ b rest, s.rx = b :: rest ∧ isIndexByte b = false := by
    rw [conditionMet_eq_some_iff (by decide)]
    simp only [byteCondition_framingDesync, State.atBoundary]
    tauto
  refine ⟨hcause, fun h => ?_⟩
  obtain ⟨hb, b, rest, hr, hjunk⟩ := hcause.1 h
  rw [step_of_junk hb hr hjunk, hr]
  rfl

/-! ### ReservedChannel (R202) -/

/-- Settles O22: the reserved selector names no cell, so the command is dropped. -/
theorem reservedChannelDropsValueByte : Obligations.ReservedChannelDropsValueByte := by
  intro s
  refine ⟨conditionMet_eq_reservedChannel_iff s, fun h => ?_⟩
  obtain ⟨hn, hph, hch, hr⟩ := (conditionMet_eq_reservedChannel_iff s).1 h
  exact step_of_dropped_value hn hph hr (hch ▸ namesCell_directCell_reserved s.fb s.idx)

/-! ### TransportStall (R204) and the answer of every step (R200) -/

/-- No unit's meaning consumes a byte: that is the step's. -/
theorem exec_rx {i : Instr} {s t : State} (h : exec i s = .next t) : t.rx = s.rx := by
  cases i <;> cases h <;> rfl

/-- A step that reads consumes exactly the byte it reads (R37). -/
theorem step_rx_of_readsNext {s t : State} {b : Byte} {rest : List Byte} (h : s.readsNext)
    (hr : s.rx = b :: rest) (ht : step s = .next t) : t.rx = rest := by
  rcases hph : s.phase with _ | _
  · rcases hb : isIndexByte b with _ | _
    · rw [step_of_junk ⟨h, hph⟩ hr hb] at ht
      exact exec_rx ht
    · rw [step_of_index ⟨h, hph⟩ hr hb] at ht
      cases ht
      rfl
  · rw [step_of_value h hph hr] at ht
    exact exec_rx ht

/-- Settles O23: a quiescent state is a fixed point of the step; after a delivery the step consumes the
byte delivered. -/
theorem stallLeavesStateUnchanged : Obligations.StallLeavesStateUnchanged := by
  intro s h
  refine ⟨conditionMet_of_quiescent h, runSteps_of_quiescent h, fun b => ?_⟩
  obtain ⟨hn, hr⟩ := h
  have hreads : (deliver b s).readsNext := hn
  have hrx : (deliver b s).rx = [b] := by rw [deliver_rx, hr, List.nil_append]
  refine ⟨hreads, hrx, fun hstep => ?_⟩
  have hconsumed : (deliver b s).rx = [] := step_rx_of_readsNext hreads hrx hstep
  rw [hrx] at hconsumed
  cases hconsumed

/-- Settles O26: either of the two turns answers a next state. -/
theorem everyStepAnswersNextState : Obligations.EveryStepAnswersNextState := step_next

end Sys2Proof.Machine
end

section
/-! SUPPORT. Reset and hazards (70_reset_and_hazards.md): the initialisation as one effect, the one quiescent
state a run ends in, and what a byte lost or doubled in the input costs, with the statements they settle. -/

namespace Sys2Proof.Machine

/-! ### Initialisation (R240 to R242) -/

/-- Performing bytes of which the last is a latch byte leaves both lines low (R113). -/
theorem performAll_of_latchByte_suffix {bs : List Byte} (h : [latchByte] <:+ bs) (s : State) :
    performAll (bs.flatMap emitOps) s = s.sent (bs.flatMap emitOps) .low := by
  obtain ⟨earlier, rfl⟩ := h
  exact performAll_flatMap_emitOps_concat earlier latchByte s

/-- The initialisation configures both lines and leaves them low (R241, R242). -/
theorem performAll_initOps {n : Nat} (h : 0 < n) (s : State) :
    performAll (initOps n) s = { s with
      trace := s.trace ++ initOps n, dirData := .output, dirClock := .output, data := .low, clock := .low } := by
  rw [initOps, performAll_append, performAll_of_latchByte_suffix (latchByte_suffix_replicate h),
    ← List.append_assoc]
  simp [State.sent, performOp, gpioCfgOut]

/-- The operations of the initialisation written out: a latch byte is eight bit-periods of 0 (R112, R242). -/
theorem initOps_eq_bitPeriods (n : Nat) : initOps n = [.cfgOut .data, .cfgOut .clock] ++
    (List.replicate n (List.replicate 8
      [LineOp.set .data false, LineOp.set .clock true, LineOp.set .clock false]).flatten).flatten := by
  rw [initOps, List.flatMap_replicate]
  rfl

/-- `init_strip()` performs the operations of its trace (R241). -/
theorem initStrip_eq (s : State) :
    initStrip s = performAll (initOps s.fb.length) { s with stage := .running } := by
  have hstage : ∀ (ops : List LineOp) (t : State),
      performAll ops { t with stage := .running } = { performAll ops t with stage := .running } :=
    performAll_comm (f := fun t => { t with stage := .running })
      fun op t => by rcases op with l | ⟨l, b⟩ <;> cases l <;> rfl
  rw [initStrip, emitLatches_eq, hstage]
  rfl

/-- One step starts the reset sequence and the steps after it perform it: `init_strip()` (R39, R240). -/
theorem runSteps_initStrip {s : State} (hst : s.stage = .resetting) (hp : s.pending = []) :
    runSteps (1 + (2 + 24 * s.fb.length)) s = .next (initStrip s) := by
  have hpending : (beginInit s).pending = initOps s.fb.length := by
    rw [beginInit_pending, hp, List.nil_append]
  have hdrain := runSteps_pending (s := beginInit s) rfl
  rw [State.drained, hpending, initOps_length] at hdrain
  rw [Nat.add_comm, runSteps_succ (step_of_resetting hst), hdrain, initStrip_eq, ← hp]
  rfl

/-- Settles O2: the steps are `init_strip()`, which performs the initialisation; its latch bytes leave both
lines low. -/
theorem initialisationTraceAndEndState : Obligations.InitialisationTraceAndEndState := by
  have hstrips : 0 < State.reset.fb.length := by
    rw [show State.reset.fb = FrameBuffer.reset from rfl, FrameBuffer.reset_length]
    exact Config.nStrips_pos
  refine ⟨fun s hst hp hfb => ?_, rfl, rfl, hstrips, rfl, rfl, rfl⟩
  rw [runSteps_initStrip hst hp, initStrip_eq, performAll_initOps hfb, ← initOps_eq_bitPeriods]

/-! ### The end of a run (R247) -/

/-- Settles O24: starting the reset sequence changes the stage, a line operation the trace, and reading a
byte the input. -/
theorem quiescentIffStepChangesNothing : Obligations.QuiescentIffStepChangesNothing := by
  refine fun s => ⟨step_of_blocked, fun h => ?_⟩
  have hread : ∀ b rest, s.readsNext → s.rx ≠ b :: rest := fun b rest hn hr =>
    List.cons_ne_self b rest (hr.symm.trans (step_rx_of_readsNext hn hr h))
  obtain ⟨hst, ht⟩ | ⟨-, op, ops, -, ht⟩ | ⟨hq, -⟩ | ⟨hb, b, rest, hr, -⟩ | ⟨hb, b, rest, hr, -⟩ |
    ⟨hn, -, b, rest, hr, -⟩ := step_cases h
  · have hrunning : s.stage = .running := congrArg State.stage ht
    rw [hst] at hrunning
    cases hrunning
  · have htrace : s.trace = s.trace ++ [op] := (congrArg State.trace ht).trans (performOp_trace op _)
    simp at htrace
  · exact hq
  · exact absurd hr (hread b rest hb.1)
  · exact absurd hr (hread b rest hb.1)
  · exact absurd hr (hread b rest hn)

/-- After any input the core is about to read again. -/
theorem consume_readsNext {s : State} (h : s.readsNext) (bs : List Byte) : (consume s bs).readsNext := by
  induction bs generalizing s with
  | nil => exact h
  | cons b bs ih => exact ih (decodeByte_readsNext b h)

/-- `decode_byte` is given its bytes, and takes none of those that wait (R182). -/
theorem consume_rx (s : State) (bs : List Byte) : (consume s bs).rx = s.rx := by
  rw [← withRx_rx s.rx (consume s bs), ← consume_withRx]
  rfl

/-- After the initialisation the core is about to read (R240). -/
theorem initStrip_readsNext {s : State} (h : s.pending = []) : (initStrip s).readsNext := by
  rw [initStrip_eq]
  exact ⟨performAll_stage _ _, by rw [performAll_pending, h]⟩

/-- The initialisation takes no notice of the bytes that wait (R36). -/
theorem initStrip_withRx (bs : List Byte) (s : State) :
    initStrip (withRx bs s) = withRx bs (initStrip s) := by
  rw [initStrip_eq, initStrip_eq, ← performAll_withRx]
  rfl

/-- Two quiescent states of one run are the same state (R247). -/
theorem quiescent_unique {s t u : State} {j k : Nat} (hj : runSteps j s = .next t) (ht : t.quiescent)
    (hk : runSteps k s = .next u) (hu : u.quiescent) : t = u := by
  have hjk : runSteps (j + k) s = .next t := (runSteps_add hj k).trans (runSteps_of_quiescent ht k)
  have hkj : runSteps (k + j) s = .next u := (runSteps_add hk j).trans (runSteps_of_quiescent hu j)
  rw [Nat.add_comm, hkj] at hjk
  exact (Host.Outcome.next.inj hjk).symm

/-- A run from before the reset sequence reaches `init_strip()` and then the fold of `decode_byte` over its
input, and stays there (R182, R240). -/
theorem runSteps_initStrip_consume {s : State} (hst : s.stage = .resetting) (hp : s.pending = [])
    (bs : List Byte) :
    ∃ k, ∀ m, runSteps (k + m) (withRx bs s) = .next (withRx [] (consume (initStrip s) bs)) := by
  have hinit := runSteps_initStrip (s := withRx bs s) hst hp
  rw [initStrip_withRx] at hinit
  obtain ⟨k, hk⟩ := stepsRefineDecodeByteFold (withRx bs (initStrip s)) (initStrip_readsNext hp)
  rw [withRx_rx, consume_withRx] at hk
  exact ⟨_, fun m => by rw [Nat.add_assoc, runSteps_add hinit]; exact hk m⟩

/-- Settles O42: the initialisation and then the input byte by byte; the state so reached is quiescent, and a
run has only one such state. -/
theorem runFromResetReachesItsResult : Obligations.RunFromResetReachesItsResult := by
  intro bs
  have hrx : (consume (initStrip State.reset) bs).rx = [] := by
    rw [consume_rx, initStrip_eq, performAll_rx]
    rfl
  have hquiescent : (consume (initStrip State.reset) bs).quiescent :=
    ⟨consume_readsNext (initStrip_readsNext rfl) bs, hrx⟩
  obtain ⟨k, hk⟩ := runSteps_initStrip_consume (s := State.reset) rfl rfl bs
  rw [withRx, ← hrx] at hk
  exact ⟨⟨k, hk⟩, hquiescent, fun j t hj ht => quiescent_unique hj ht (hk 0) hquiescent⟩

/-! ### Whole commands (R250) -/

/-- Each pair begins with an index byte: commands as the decoder takes them, whatever their value bytes. -/
def IndexFirst (cmds : List (Byte × Byte)) : Prop := ∀ c ∈ cmds, isIndexByte c.1 = true

@[simp] theorem commandBytes_nil : commandBytes [] = [] := rfl

@[simp] theorem commandBytes_cons (c : Byte × Byte) (cmds : List (Byte × Byte)) :
    commandBytes (c :: cmds) = c.1 :: c.2 :: commandBytes cmds := rfl

@[simp] theorem commandBytes_append (cmds cmds' : List (Byte × Byte)) :
    commandBytes (cmds ++ cmds') = commandBytes cmds ++ commandBytes cmds' :=
  List.flatMap_append

@[simp] theorem indexFirst_nil : IndexFirst [] := List.forall_mem_nil _

@[simp] theorem indexFirst_cons (c : Byte × Byte) (cmds : List (Byte × Byte)) :
    IndexFirst (c :: cmds) ↔ isIndexByte c.1 = true ∧ IndexFirst cmds :=
  List.forall_mem_cons

@[simp] theorem indexFirst_append (cmds cmds' : List (Byte × Byte)) :
    IndexFirst (cmds ++ cmds') ↔ IndexFirst cmds ∧ IndexFirst cmds' :=
  List.forall_mem_append

/-- Where a conforming stream has one command, that command is an index byte and a low value byte between
whole commands. -/
theorem conformingBytes_append_cons {before after : List (Byte × Byte)} {i v : Byte}
    (h : conformingBytes (before ++ (i, v) :: after)) :
    IndexFirst before ∧ isIndexByte i = true ∧ isIndexByte v = false ∧ IndexFirst after ∧
      conformingBytes after := by
  obtain ⟨hbefore, hcmd, hafter⟩ := List.forall_mem_append.1 h |>.imp_right List.forall_mem_cons.1
  exact ⟨fun c hc => (hbefore c hc).1, hcmd.1, hcmd.2, fun c hc => (hafter c hc).1, hafter⟩

/-- From a unit boundary the two bytes of a command end at one, and neither is discarded (R170). -/
theorem decodeByte_command {s : State} {i : Byte} (v : Byte) (h : s.phase = .seekIndex)
    (hi : isIndexByte i = true) :
    (decodeByte (decodeByte s i) v).phase = .seekIndex ∧
    ∀ bs, discarded s (i :: v :: bs) = discarded (decodeByte (decodeByte s i) v) bs := by
  have hvalue : (decodeByte s i).phase = .seekValue := by rw [decodeByte_index h hi, latchIndex_phase]
  refine ⟨(decodeByte_value_registers v hvalue).phase, fun bs => ?_⟩
  rw [discarded_other _ (by simp [hi]), discarded_other _ (by simp [hvalue])]

/-- Whole commands end at a unit boundary. -/
theorem consume_commandBytes_phase {s : State} {cmds : List (Byte × Byte)} (h : s.phase = .seekIndex)
    (hc : IndexFirst cmds) : (consume s (commandBytes cmds)).phase = .seekIndex := by
  induction cmds generalizing s with
  | nil => exact h
  | cons c cmds ih =>
    obtain ⟨hi, hcmds⟩ := (indexFirst_cons c cmds).1 hc
    exact ih (decodeByte_command c.2 h hi).1 hcmds

/-- No byte of whole commands is discarded. -/
theorem discarded_commandBytes {s : State} {cmds : List (Byte × Byte)} (h : s.phase = .seekIndex)
    (hc : IndexFirst cmds) : discarded s (commandBytes cmds) = 0 := by
  induction cmds generalizing s with
  | nil => rfl
  | cons c cmds ih =>
    obtain ⟨hi, hcmds⟩ := (indexFirst_cons c cmds).1 hc
    obtain ⟨hphase, hdiscarded⟩ := decodeByte_command c.2 h hi
    rw [commandBytes_cons, hdiscarded]
    exact ih hphase hcmds

/-! ### One junk byte between whole commands (R176, R250) -/

section JunkBetween

variable {s : State} {cmds : List (Byte × Byte)} {b : Byte}

/-- A junk byte after whole commands makes no difference to the state reached. -/
theorem consume_junk_between (h : s.phase = .seekIndex) (hc : IndexFirst cmds)
    (hb : isIndexByte b = false) (bs : List Byte) :
    consume s (commandBytes cmds ++ b :: bs) = consume s (commandBytes cmds ++ bs) := by
  rw [consume_append, consume_append, consume_cons,
    decodeByte_junk (consume_commandBytes_phase h hc) hb]

/-- A junk byte between whole commands is the one byte discarded. -/
theorem discarded_junk_between {cmds' : List (Byte × Byte)} (h : s.phase = .seekIndex)
    (hc : IndexFirst cmds) (hb : isIndexByte b = false) (hc' : IndexFirst cmds') :
    discarded s (commandBytes cmds ++ b :: commandBytes cmds') = 1 := by
  have hphase := consume_commandBytes_phase h hc
  rw [discarded_append, discarded_commandBytes h hc, discarded_junk _ hphase hb,
    discarded_commandBytes hphase hc']

end JunkBetween

/-! ### One byte lost or doubled (R250 to R253) -/

/-- Settles O45: the value byte left alone stands between whole commands. -/
theorem droppedIndexByteLosesOneUpdate : Obligations.DroppedIndexByteLosesOneUpdate := by
  intro s before after i v h hconf
  obtain ⟨hbefore, -, hv, hafter, -⟩ := conformingBytes_append_cons hconf
  exact ⟨consume_junk_between h hbefore hv _, discarded_junk_between h hbefore hv hafter⟩

/-- Settles O46: the two index bytes are one command, and the value byte after them stands alone. -/
theorem droppedValueByteMisvaluesOneUpdate : Obligations.DroppedValueByteMisvaluesOneUpdate := by
  intro s before after i v i' v' h hconf
  obtain ⟨hbefore, hi, -, -, hconf'⟩ := conformingBytes_append_cons hconf
  obtain ⟨-, -, hv', hafter, -⟩ := conformingBytes_append_cons (before := []) hconf'
  have hmisvalued : IndexFirst (before ++ [(i, i')]) := by simp [hbefore, hi]
  have hstate := consume_junk_between h hmisvalued hv' (commandBytes after)
  have hcount := discarded_junk_between h hmisvalued hv' hafter
  simp only [commandBytes_append, commandBytes_cons, commandBytes_nil, List.append_assoc,
    List.cons_append, List.nil_append] at hstate hcount
  exact ⟨hstate, hcount⟩

/-- Settles O47: the first two of the three bytes are one command, and the value byte after them stands
alone. -/
theorem duplicatedByteDiscardsOneByte : Obligations.DuplicatedByteDiscardsOneByte := by
  intro s before after i v h hconf
  obtain ⟨hbefore, hi, hv, hafter, -⟩ := conformingBytes_append_cons hconf
  have hdoubled : ∀ w, IndexFirst (before ++ [(i, w)]) := fun w => by simp [hbefore, hi]
  have hstate := fun w => consume_junk_between h (hdoubled w) hv (commandBytes after)
  have hcount := fun w => discarded_junk_between h (hdoubled w) hv hafter
  simp only [commandBytes_append, commandBytes_cons, commandBytes_nil, List.append_assoc,
    List.cons_append, List.nil_append] at hstate hcount
  exact ⟨hstate i, hstate v, hcount i, hcount v⟩

/-- Each of the four disturbances leaves whole commands, one low byte, and whole commands as sent: a dropped
byte leaves a value byte alone, and a doubled one leaves the third of its three bytes alone. -/
theorem disturbed_cases {before after : List (Byte × Byte)} {i v i' v' : Byte} {disturbed : List Byte}
    (hi : isIndexByte i = true) (hv : isIndexByte v = false) (hv' : isIndexByte v' = false)
    (h : disturbed ∈ [
      commandBytes before ++ v :: i' :: v' :: commandBytes after,
      commandBytes before ++ i :: i' :: v' :: commandBytes after,
      commandBytes before ++ i :: i :: v :: i' :: v' :: commandBytes after,
      commandBytes before ++ i :: v :: v :: i' :: v' :: commandBytes after]) :
    ∃ struck b cmds, disturbed = commandBytes (before ++ struck) ++ b :: commandBytes cmds ∧
      IndexFirst struck ∧ isIndexByte b = false ∧ (cmds = (i', v') :: after ∨ cmds = after) := by
  simp only [List.mem_cons, List.not_mem_nil, or_false] at h
  obtain rfl | rfl | rfl | rfl := h
  · exact ⟨[], v, (i', v') :: after, by simp, by simp, hv, .inl rfl⟩
  · exact ⟨[(i, i')], v', after, by simp, by simp [hi], hv', .inr rfl⟩
  · exact ⟨[(i, i)], v, (i', v') :: after, by simp, by simp [hi], hv, .inl rfl⟩
  · exact ⟨[(i, v)], v, (i', v') :: after, by simp, by simp [hi], hv, .inl rfl⟩

/-- Settles O48: whichever byte is struck, one low byte stands between whole commands. -/
theorem resynchronisesWithinOneDiscardedByte : Obligations.ResynchronisesWithinOneDiscardedByte := by
  intro s before after i v i' v' h hconf disturbed hmem
  obtain ⟨hbefore, hi, hv, hleft, hconf'⟩ := conformingBytes_append_cons hconf
  obtain ⟨-, -, hv', hafter, -⟩ := conformingBytes_append_cons (before := []) hconf'
  obtain ⟨struck, b, cmds, rfl, hstruck, hb, hcmds⟩ := disturbed_cases hi hv hv' hmem
  have hread : IndexFirst (before ++ struck) := (indexFirst_append before struck).2 ⟨hbefore, hstruck⟩
  have hcmdsFirst : IndexFirst cmds := by
    obtain rfl | rfl := hcmds
    · exact hleft
    · exact hafter
  have hphase := consume_commandBytes_phase h hread
  refine ⟨discarded_junk_between h hread hb hcmdsFirst, ?_, commandBytes struck, b, cmds, ?_, hcmds, ?_⟩
  · rw [consume_junk_between h hread hb, consume_append]
    exact consume_commandBytes_phase hphase hcmdsFirst
  · rw [commandBytes_append]
  · rw [← commandBytes_append]
    exact ⟨(byteCondition_framingDesync _ b).2 ⟨hphase, hb⟩, decodeByte_junk hphase hb⟩

/-! ### Value bytes with the marker (R254) -/

/-- A byte and then pairs are also pairs and then a byte: each value byte with the index byte after it, and
the last value byte alone. -/
theorem cons_commandBytes_eq (v : Byte) (cmds : List (Byte × Byte)) :
    v :: commandBytes cmds =
      commandBytes ((v :: cmds.map Prod.snd).zip (cmds.map Prod.fst)) ++
        [(v :: cmds.map Prod.snd).getLast (List.cons_ne_nil _ _)] := by
  induction cmds generalizing v with
  | nil => rfl
  | cons c cmds ih =>
    rw [commandBytes_cons, ih c.2]
    rfl

/-- Settles O49: read as pairs that each begin with a value byte, all of them commands, and the last value
byte. -/
theorem markedValueBytesDefeatResynchronisation : Obligations.MarkedValueBytesDefeatResynchronisation := by
  intro s v cmds h hv hcmds values last
  have hmarked : ∀ w ∈ values, isIndexByte w = true :=
    List.forall_mem_cons.2 ⟨hv, List.forall_mem_map.2 fun c hc => (hcmds c hc).2⟩
  have hexchanged : IndexFirst (values.zip (cmds.map Prod.fst)) := fun c hc =>
    hmarked c.1 (List.of_mem_zip hc).1
  have hlast : isIndexByte last = true := hmarked last (List.getLast_mem _)
  have hphase := consume_commandBytes_phase h hexchanged
  have hsplit : v :: commandBytes cmds = commandBytes (values.zip (cmds.map Prod.fst)) ++ [last] :=
    cons_commandBytes_eq v cmds
  rw [hsplit, discarded_append, consume_append]
  constructor
  · rw [discarded_commandBytes h hexchanged, discarded_other [] (by simp [hlast]), discarded_nil]
  · exact decodeByte_index hphase hlast

/-! ### A low byte after a pause (R261) -/

/-- A command ends at a unit boundary (R170). -/
theorem exec_commandOf_phase {s t : State} {p : BitVec 5} {c : BitVec 2} {v : Byte}
    (h : exec (commandOf p c v) s = .next t) : t.phase = .seekIndex := by
  rw [exec_commandOf] at h
  split at h <;> cases h <;> rfl

/-- A command with a selector of a colour writes its cell (R171 to R173). -/
theorem exec_commandOf_fb {s t : State} {p : BitVec 5} {c : BitVec 2} {v : Byte}
    (hc : c ≠ reservedSelector) (h : exec (commandOf p c v) s = .next t) :
    t.fb = (fbWrite s.fb (directCell p c) v).1 := by
  rw [exec_commandOf, if_neg hc] at h
  cases h
  rfl

/-- A byte delivered to a quiescent core and taken again leaves it as it was. -/
theorem withRx_nil_deliver {s : State} (b : Byte) (h : s.rx = []) : withRx [] (deliver b s) = s := by
  rw [deliver, withRx, ← h]

/-- Settles O50: a stall changes nothing; after it the low byte is junk in `SEEK_INDEX`, and in `SEEK_VALUE`
it ends the command latched. -/
theorem oneLowByteRealignsAfterAPause : Obligations.OneLowByteRealignsAfterAPause := by
  rintro s b hq hb hfb k
  obtain ⟨hn, hrx⟩ := hq
  have hreads : (deliver b s).readsNext := hn
  have hdelivered : (deliver b s).rx = [b] := by rw [deliver_rx, hrx, List.nil_append]
  obtain ⟨t, ht⟩ := step_next (deliver b s)
  refine ⟨s, t, runSteps_of_quiescent ⟨hn, hrx⟩ k, rfl, ht, step_rx_of_readsNext hreads hdelivered ht, ?_⟩
  cases hph : s.phase with
  | seekIndex =>
    rw [step_of_junk ⟨hreads, hph⟩ hdelivered hb, withRx_nil_deliver b hrx] at ht
    cases ht
    exact ⟨hph, fun _ => rfl, nofun⟩
  | seekValue =>
    rw [step_of_value hreads hph hdelivered, withRx_nil_deliver b hrx] at ht
    refine ⟨exec_commandOf_phase ht, nofun, fun _ hch => ?_⟩
    rw [exec_commandOf_fb hch ht]
    exact storesCell_directCell hfb s.idx hch b

end Sys2Proof.Machine
end
